-- ==== Sys2Proof/Word.lean ====
section
/-! DEFINITION. The word types of the CHIP-8 core (00_scope R4, R5): bytes, 16-bit words, 12-bit literal
addresses and 4-bit register numbers. Every value of this machine is unsigned (R5). -/

namespace Sys2Proof

/-- An 8-bit value: a general register, a timer, a byte of memory, the literal `kk`. -/
abbrev Byte := BitVec 8

/-- A 16-bit value: `I`, `PC`, a stack entry, an instruction word. -/
abbrev Word := BitVec 16

/-- The 12-bit literal `nnn` (30_encoding R61). -/
abbrev Addr12 := BitVec 12

/-- A 4-bit field read as a number 0..15: a register number, a key index, a sprite height (30_encoding R61). -/
abbrev Nibble := Fin 16

/-- A general register number, 0..15 (10_state R10). -/
abbrev Reg := Nibble

end Sys2Proof
end

