-- ==== Sys2Proof/Config.lean ====
section
/-! DEFINITION. The constants of 00_scope R4, the parameters a model takes as arguments (R4: `CPU_RATE`, `FONT`,
`FONT_INDEX_MASK`), and the one free value of the spec, the byte an RND instruction draws (41_alu R113). -/

namespace Sys2Proof

/-- `MEM_SIZE` (R4): 4096 bytes. -/
def memSize : Nat := 4096

/-- `PROG_BASE` (R4): the program region and the entry point begin at 0x200. -/
def progBase : Nat := 0x200

/-- `PROG_CAPACITY` (R4): 4096 - 512 = 3584 bytes. -/
def progCapacity : Nat := 3584

/-- `STACK_DEPTH` (R4): 16 return addresses. -/
def stackDepth : Nat := 16

/-- `GLYPH_HEIGHT` (R4): 5 bytes. -/
def glyphHeight : Nat := 5

/-- `TIMER_RATE` (R4): 60 Hz. -/
def timerRate : Nat := 60

/-- Nanoseconds in a second; the time unit is 1 ns (R4, 60_exceptions R183). -/
def nanosPerSecond : Nat := 1000000000

/-- The setting of `FONT_INDEX_MASK` (R4, 42_index_memory R123, decision D19). -/
inductive FontIndexMask where
  /-- `none`, the default: LD_RF uses the whole byte as the glyph index. -/
  | whole
  /-- `low_nibble`: LD_RF uses the low four bits. -/
  | lowNibble
deriving DecidableEq, Repr

/-- The parameters a `Reset` takes (R4): fixed from one `Reset` to the next. They are data, so that a statement
about every state is a statement about every setting of them. -/
structure Config where
  /-- `CPU_RATE` in Hz. -/
  cpuRate : Nat
  /-- `FONT`: the 80 glyph bytes (20_memory R42, R43). -/
  font : Vector Byte 80
  /-- `FONT_INDEX_MASK`. -/
  fontIndexMask : FontIndexMask
deriving DecidableEq, Repr

/-- A rate a gate can be made from: 1 to 10^9 Hz (60_exceptions R183: 0, or above 10^9, is not legal). -/
def legalRate (r : Nat) : Bool := decide (1 ≤ r ∧ r ≤ nanosPerSecond)

/-- The glyphs of the digits 0 to 7 in the conventional font of 20_memory R43. PRESUMED: the bytes are general
knowledge, not in the source (log entry 5). -/
def glyphsLow : Vector Byte 40 := #v[
  0xF0, 0x90, 0x90, 0x90, 0xF0,
  0x20, 0x60, 0x20, 0x20, 0x70,
  0xF0, 0x10, 0xF0, 0x80, 0xF0,
  0xF0, 0x10, 0xF0, 0x10, 0xF0,
  0x90, 0x90, 0xF0, 0x10, 0x10,
  0xF0, 0x80, 0xF0, 0x10, 0xF0,
  0xF0, 0x80, 0xF0, 0x90, 0xF0,
  0xF0, 0x10, 0x20, 0x40, 0x40]

/-- The glyphs of the digits 8 to F (20_memory R43). PRESUMED, as `glyphsLow`. -/
def glyphsHigh : Vector Byte 40 := #v[
  0xF0, 0x90, 0xF0, 0x90, 0xF0,
  0xF0, 0x90, 0xF0, 0x10, 0xF0,
  0xF0, 0x90, 0xF0, 0x90, 0x90,
  0xE0, 0x90, 0xE0, 0x90, 0xE0,
  0xF0, 0x80, 0x80, 0x80, 0xF0,
  0xE0, 0x90, 0x90, 0x90, 0xE0,
  0xF0, 0x80, 0xF0, 0x80, 0xF0,
  0xF0, 0x80, 0xF0, 0x80, 0x80]

/-- The default parameters: `FONT` and `FONT_INDEX_MASK` at the defaults of R4 and R43; `CPU_RATE` at the
document's example, 500 Hz. DESIGN CHOICE for the rate (log entry 3): the spec gives no default. -/
def Config.default : Config where
  cpuRate := 500
  font := glyphsLow ++ glyphsHigh
  fontIndexMask := .whole

/-- FREE VALUE: the byte drawn by the `n`-th executed RND for which the host supplied none (41_alu R113,
93_implementation_defined U6: "any value"). It has no body, so a claim holds for every sequence of draws (log entry 9). -/
opaque Config.freeDraw : Nat → Byte

end Sys2Proof
end

