-- ==== Sys2Proof/Syntax.lean ====
section
/-! DEFINITION. The instruction set: one constructor per row of spec/opcode_table.json (30_encoding R66), with the
operands its format has (R62). Register numbers, the key of the decoder's cases and literals are already taken apart,
so the machine never sees an encoding. -/

namespace Sys2Proof

/-- The 35 instructions of 30_encoding R66, in the order of the opcode table. -/
inductive Instr where
  /-- `0nnn` SYS nnn. -/
  | sys (nnn : Addr12)
  /-- `00E0` CLS. -/
  | cls
  /-- `00EE` RET. -/
  | ret
  /-- `1nnn` JP nnn. -/
  | jp (nnn : Addr12)
  /-- `2nnn` CALL nnn. -/
  | call (nnn : Addr12)
  /-- `3xkk` SE_RV Vx, kk. -/
  | seRV (x : Reg) (kk : Byte)
  /-- `4xkk` SNE_RV Vx, kk. -/
  | sneRV (x : Reg) (kk : Byte)
  /-- `5xy0` SE_RR Vx, Vy. -/
  | seRR (x y : Reg)
  /-- `6xkk` LD_RV Vx, kk. -/
  | ldRV (x : Reg) (kk : Byte)
  /-- `7xkk` ADD_RV Vx, kk. -/
  | addRV (x : Reg) (kk : Byte)
  /-- `8xy0` LD_RR Vx, Vy. -/
  | ldRR (x y : Reg)
  /-- `8xy1` OR Vx, Vy. -/
  | or (x y : Reg)
  /-- `8xy2` AND Vx, Vy. -/
  | and (x y : Reg)
  /-- `8xy3` XOR Vx, Vy. -/
  | xor (x y : Reg)
  /-- `8xy4` ADD_RR Vx, Vy. -/
  | addRR (x y : Reg)
  /-- `8xy5` SUB_RR Vx, Vy. -/
  | subRR (x y : Reg)
  /-- `8xy6` SHR Vx; the field `y` is decoded and not used (R69). -/
  | shr (x y : Reg)
  /-- `8xy7` SUBN Vx, Vy. -/
  | subn (x y : Reg)
  /-- `8xyE` SHL Vx; the field `y` is decoded and not used (R69). -/
  | shl (x y : Reg)
  /-- `9xy0` SNE_RR Vx, Vy. -/
  | sneRR (x y : Reg)
  /-- `Annn` LD_IV nnn. -/
  | ldIV (nnn : Addr12)
  /-- `Bnnn` JP_RV nnn. -/
  | jpRV (nnn : Addr12)
  /-- `Cxkk` RND Vx, kk. -/
  | rnd (x : Reg) (kk : Byte)
  /-- `Dxyn` DRW Vx, Vy, n. -/
  | drw (x y : Reg) (n : Nibble)
  /-- `Ex9E` SKP Vx. -/
  | skp (x : Reg)
  /-- `ExA1` SKNP Vx. -/
  | sknp (x : Reg)
  /-- `Fx07` LD_RD Vx. -/
  | ldRD (x : Reg)
  /-- `Fx0A` LD_RK Vx. -/
  | ldRK (x : Reg)
  /-- `Fx15` LD_DR Vx. -/
  | ldDR (x : Reg)
  /-- `Fx18` LD_SR Vx. -/
  | ldSR (x : Reg)
  /-- `Fx1E` ADD_IR Vx. -/
  | addIR (x : Reg)
  /-- `Fx29` LD_RF Vx. -/
  | ldRF (x : Reg)
  /-- `Fx33` LD_BR Vx. -/
  | ldBR (x : Reg)
  /-- `Fx55` LD_IRR Vx. -/
  | ldIRR (x : Reg)
  /-- `Fx65` LD_RRI Vx. -/
  | ldRRI (x : Reg)
deriving DecidableEq, Repr

/-- The mnemonic of an instruction, as 30_encoding R66 and spec/opcode_table.json spell it. -/
def Instr.mnemonic : Instr → String
  | .sys _ => "SYS"
  | .cls => "CLS"
  | .ret => "RET"
  | .jp _ => "JP"
  | .call _ => "CALL"
  | .seRV _ _ => "SE_RV"
  | .sneRV _ _ => "SNE_RV"
  | .seRR _ _ => "SE_RR"
  | .ldRV _ _ => "LD_RV"
  | .addRV _ _ => "ADD_RV"
  | .ldRR _ _ => "LD_RR"
  | .or _ _ => "OR"
  | .and _ _ => "AND"
  | .xor _ _ => "XOR"
  | .addRR _ _ => "ADD_RR"
  | .subRR _ _ => "SUB_RR"
  | .shr _ _ => "SHR"
  | .subn _ _ => "SUBN"
  | .shl _ _ => "SHL"
  | .sneRR _ _ => "SNE_RR"
  | .ldIV _ => "LD_IV"
  | .jpRV _ => "JP_RV"
  | .rnd _ _ => "RND"
  | .drw _ _ _ => "DRW"
  | .skp _ => "SKP"
  | .sknp _ => "SKNP"
  | .ldRD _ => "LD_RD"
  | .ldRK _ => "LD_RK"
  | .ldDR _ => "LD_DR"
  | .ldSR _ => "LD_SR"
  | .addIR _ => "ADD_IR"
  | .ldRF _ => "LD_RF"
  | .ldBR _ => "LD_BR"
  | .ldIRR _ => "LD_IRR"
  | .ldRRI _ => "LD_RRI"

end Sys2Proof
end

