-- ==== Sys2Proof/WellFormed.lean ====
section
/-! DEFINITION. Which terms stand for something the spec has. An instruction's fields have exactly the widths of
30_encoding R61, so the one thing left to check is that SYS carries neither of the two literals the decoder gives to CLS
and RET (R64, R66). The parameters of a `Reset` and the key events of an `InputBatch` have a check each. -/

namespace Sys2Proof

/-- A SYS literal is none of 0x0E0 (CLS) and 0x0EE (RET): 30_encoding R64, R66. -/
def sysLiteralOk (nnn : Addr12) : Bool := nnn != 0x0E0 && nnn != 0x0EE

/-- An instruction that some word encodes. -/
def Instr.wellFormed : Instr → Bool
  | .sys nnn => sysLiteralOk nnn
  | .cls | .ret | .jp _ | .call _ | .seRV _ _ | .sneRV _ _ | .seRR _ _ | .ldRV _ _ | .addRV _ _ | .ldRR _ _
  | .or _ _ | .and _ _ | .xor _ _ | .addRR _ _ | .subRR _ _ | .shr _ _ | .subn _ _ | .shl _ _ | .sneRR _ _
  | .ldIV _ | .jpRV _ | .rnd _ _ | .drw _ _ _ | .skp _ | .sknp _ | .ldRD _ | .ldRK _ | .ldDR _ | .ldSR _
  | .addIR _ | .ldRF _ | .ldBR _ | .ldIRR _ | .ldRRI _ => true

/-- Parameters a `Reset` may take: the CPU rate makes a gate (60_exceptions R183). -/
def Config.wellFormed (c : Config) : Bool := legalRate c.cpuRate

/-- A key index an `InputBatch` may carry: 0..15 (44_input_timers R151). -/
def keyIndexOk (k : Nat) : Bool := decide (k < 16)

end Sys2Proof
end

