-- ==== Sys2Proof/Decode.lean ====
section
/-! DEFINITION. The decoder of 30_encoding R64, total on every word and on every byte string, rejecting by name;
then the encoder of R71, written from the formats of R62; then the opcode map of R66 as data, to hold the two against. -/

namespace Sys2Proof

/-! ### Fields of a word (30_encoding R61) -/

/-- `op`, bits 15..12: the top nibble. -/
def fieldOp (w : Word) : Nibble := (w.extractLsb' 12 4).toFin

/-- `x`, bits 11..8. -/
def fieldX (w : Word) : Nibble := (w.extractLsb' 8 4).toFin

/-- `y`, bits 7..4. -/
def fieldY (w : Word) : Nibble := (w.extractLsb' 4 4).toFin

/-- `n`, bits 3..0: the low nibble. -/
def fieldN (w : Word) : Nibble := (w.extractLsb' 0 4).toFin

/-- `kk`, bits 7..0: the low byte. -/
def fieldKK (w : Word) : Byte := w.extractLsb' 0 8

/-- `nnn`, bits 11..0: the literal address. -/
def fieldNNN (w : Word) : Addr12 := w.extractLsb' 0 12

/-! ### Decoding -/

/-- Why bytes are no instruction. -/
inductive DecodeError where
  /-- `DecodeError(w)` (R64): the word is one of the illegal words of R67; it carries the offending word. -/
  | illegal (w : Word)
  /-- Fewer than two bytes: no instruction word (R60: every instruction is two bytes). -/
  | truncated
deriving DecidableEq, Repr

/-- The `8xy_` family: secondary dispatch by the low nibble (R64). -/
def decode8 (w : Word) : Except DecodeError Instr :=
  let x := fieldX w
  let y := fieldY w
  match fieldN w with
  | 0x0 => .ok (.ldRR x y)
  | 0x1 => .ok (.or x y)
  | 0x2 => .ok (.and x y)
  | 0x3 => .ok (.xor x y)
  | 0x4 => .ok (.addRR x y)
  | 0x5 => .ok (.subRR x y)
  | 0x6 => .ok (.shr x y)
  | 0x7 => .ok (.subn x y)
  | 0xE => .ok (.shl x y)
  | _ => .error (.illegal w)

/-- The `Ex__` family: secondary dispatch by the low byte (R64). -/
def decodeE (w : Word) : Except DecodeError Instr :=
  let x := fieldX w
  if fieldKK w = 0x9E then .ok (.skp x)
  else if fieldKK w = 0xA1 then .ok (.sknp x)
  else .error (.illegal w)

/-- The `Fx__` family: secondary dispatch by the low byte (R64). -/
def decodeF (w : Word) : Except DecodeError Instr :=
  let x := fieldX w
  if fieldKK w = 0x07 then .ok (.ldRD x)
  else if fieldKK w = 0x0A then .ok (.ldRK x)
  else if fieldKK w = 0x15 then .ok (.ldDR x)
  else if fieldKK w = 0x18 then .ok (.ldSR x)
  else if fieldKK w = 0x1E then .ok (.addIR x)
  else if fieldKK w = 0x29 then .ok (.ldRF x)
  else if fieldKK w = 0x33 then .ok (.ldBR x)
  else if fieldKK w = 0x55 then .ok (.ldIRR x)
  else if fieldKK w = 0x65 then .ok (.ldRRI x)
  else .error (.illegal w)

/-- `decode(word)` of R64: dispatch by the top nibble; the last arm is the one value left, 0xF. -/
def decodeWord (w : Word) : Except DecodeError Instr :=
  match fieldOp w with
  | 0x0 => if w = 0x00E0 then .ok .cls else if w = 0x00EE then .ok .ret else .ok (.sys (fieldNNN w))
  | 0x1 => .ok (.jp (fieldNNN w))
  | 0x2 => .ok (.call (fieldNNN w))
  | 0x3 => .ok (.seRV (fieldX w) (fieldKK w))
  | 0x4 => .ok (.sneRV (fieldX w) (fieldKK w))
  | 0x5 => if fieldN w = 0 then .ok (.seRR (fieldX w) (fieldY w)) else .error (.illegal w)
  | 0x6 => .ok (.ldRV (fieldX w) (fieldKK w))
  | 0x7 => .ok (.addRV (fieldX w) (fieldKK w))
  | 0x8 => decode8 w
  | 0x9 => if fieldN w = 0 then .ok (.sneRR (fieldX w) (fieldY w)) else .error (.illegal w)
  | 0xA => .ok (.ldIV (fieldNNN w))
  | 0xB => .ok (.jpRV (fieldNNN w))
  | 0xC => .ok (.rnd (fieldX w) (fieldKK w))
  | 0xD => .ok (.drw (fieldX w) (fieldY w) (fieldN w))
  | 0xE => decodeE w
  | _ => decodeF w

/-- An instruction word from its two bytes, the byte at the lower address high (20_memory R48, R49). -/
def wordOfBytes (hi lo : Byte) : Word := hi ++ lo

/-- The two bytes of a word in the order the hardware stores them (30_encoding R60). -/
def bytesOfWord (w : Word) : List Byte := [w.extractLsb' 8 8, w.extractLsb' 0 8]

/-- Decoding a byte string: the instruction of its first two bytes and the rest. Every instruction is two bytes (R60). -/
def decodeBytes : List Byte → Except DecodeError (Instr × List Byte)
  | hi :: lo :: rest =>
    match decodeWord (wordOfBytes hi lo) with
    | .ok i => .ok (i, rest)
    | .error e => .error e
  | _ => .error .truncated

/-- The low `nbits` bits of `w` as an instruction word; the bits above are zero. An instruction has 16 bits (R60). -/
def tableWord (nbits w : Nat) : Word := BitVec.ofNat 16 (w % 2 ^ min nbits 16)

/-- The instruction the decoder reads from the word the opcode table numbers `w`: its bytes as the hardware stores
them, given to `decodeBytes`. -/
def decodeTableWord (nbits w : Nat) : Option Instr :=
  match decodeBytes (bytesOfWord (tableWord nbits w)) with
  | .ok (i, _) => some i
  | .error _ => none

/-! ### Encoding -/

/-- Format A (R62): `op nnn`. -/
def packA (op : Nibble) (nnn : Addr12) : Word := BitVec.ofFin op ++ nnn

/-- Formats XK and XS (R62): `op x kk`. -/
def packXK (op x : Nibble) (kk : Byte) : Word := (BitVec.ofFin op : BitVec 4) ++ (BitVec.ofFin x : BitVec 4) ++ kk

/-- Formats XY and XYN (R62): `op x y n`. -/
def packXYN (op x y n : Nibble) : Word :=
  (BitVec.ofFin op : BitVec 4) ++ (BitVec.ofFin x : BitVec 4) ++ (BitVec.ofFin y : BitVec 4) ++ (BitVec.ofFin n : BitVec 4)

/-- The word of an instruction (R66, R71). -/
def encode : Instr → Word
  | .sys nnn => packA 0x0 nnn
  | .cls => 0x00E0
  | .ret => 0x00EE
  | .jp nnn => packA 0x1 nnn
  | .call nnn => packA 0x2 nnn
  | .seRV x kk => packXK 0x3 x kk
  | .sneRV x kk => packXK 0x4 x kk
  | .seRR x y => packXYN 0x5 x y 0x0
  | .ldRV x kk => packXK 0x6 x kk
  | .addRV x kk => packXK 0x7 x kk
  | .ldRR x y => packXYN 0x8 x y 0x0
  | .or x y => packXYN 0x8 x y 0x1
  | .and x y => packXYN 0x8 x y 0x2
  | .xor x y => packXYN 0x8 x y 0x3
  | .addRR x y => packXYN 0x8 x y 0x4
  | .subRR x y => packXYN 0x8 x y 0x5
  | .shr x y => packXYN 0x8 x y 0x6
  | .subn x y => packXYN 0x8 x y 0x7
  | .shl x y => packXYN 0x8 x y 0xE
  | .sneRR x y => packXYN 0x9 x y 0x0
  | .ldIV nnn => packA 0xA nnn
  | .jpRV nnn => packA 0xB nnn
  | .rnd x kk => packXK 0xC x kk
  | .drw x y n => packXYN 0xD x y n
  | .skp x => packXK 0xE x 0x9E
  | .sknp x => packXK 0xE x 0xA1
  | .ldRD x => packXK 0xF x 0x07
  | .ldRK x => packXK 0xF x 0x0A
  | .ldDR x => packXK 0xF x 0x15
  | .ldSR x => packXK 0xF x 0x18
  | .addIR x => packXK 0xF x 0x1E
  | .ldRF x => packXK 0xF x 0x29
  | .ldBR x => packXK 0xF x 0x33
  | .ldIRR x => packXK 0xF x 0x55
  | .ldRRI x => packXK 0xF x 0x65

/-! ### The opcode map (30_encoding R66) -/

/-- One row of the opcode map: a word `w` is this instruction iff `w and mask = pattern`, except SYS, which is neither
0x00E0 nor 0x00EE either (R66). -/
structure OpcodeRow where
  mnemonic : String
  pattern : Word
  mask : Word
deriving DecidableEq, Repr

/-- A word is an instruction of this row (R66). -/
def OpcodeRow.covers (r : OpcodeRow) (w : Word) : Bool :=
  w &&& r.mask == r.pattern && (r.mnemonic != "SYS" || (w != 0x00E0 && w != 0x00EE))

/-- The rows whose mask is the top nibble or the whole word. -/
def opcodeMapTop : List OpcodeRow := [
  ⟨"SYS", 0x0000, 0xF000⟩, ⟨"CLS", 0x00E0, 0xFFFF⟩, ⟨"RET", 0x00EE, 0xFFFF⟩, ⟨"JP", 0x1000, 0xF000⟩,
  ⟨"CALL", 0x2000, 0xF000⟩, ⟨"SE_RV", 0x3000, 0xF000⟩, ⟨"SNE_RV", 0x4000, 0xF000⟩, ⟨"LD_RV", 0x6000, 0xF000⟩,
  ⟨"ADD_RV", 0x7000, 0xF000⟩, ⟨"LD_IV", 0xA000, 0xF000⟩, ⟨"JP_RV", 0xB000, 0xF000⟩, ⟨"RND", 0xC000, 0xF000⟩,
  ⟨"DRW", 0xD000, 0xF000⟩]

/-- The rows told apart by the low nibble. -/
def opcodeMapLowNibble : List OpcodeRow := [
  ⟨"SE_RR", 0x5000, 0xF00F⟩, ⟨"LD_RR", 0x8000, 0xF00F⟩, ⟨"OR", 0x8001, 0xF00F⟩, ⟨"AND", 0x8002, 0xF00F⟩,
  ⟨"XOR", 0x8003, 0xF00F⟩, ⟨"ADD_RR", 0x8004, 0xF00F⟩, ⟨"SUB_RR", 0x8005, 0xF00F⟩, ⟨"SHR", 0x8006, 0xF00F⟩,
  ⟨"SUBN", 0x8007, 0xF00F⟩, ⟨"SHL", 0x800E, 0xF00F⟩, ⟨"SNE_RR", 0x9000, 0xF00F⟩]

/-- The rows told apart by the low byte. -/
def opcodeMapLowByte : List OpcodeRow := [
  ⟨"SKP", 0xE09E, 0xF0FF⟩, ⟨"SKNP", 0xE0A1, 0xF0FF⟩, ⟨"LD_RD", 0xF007, 0xF0FF⟩, ⟨"LD_RK", 0xF00A, 0xF0FF⟩,
  ⟨"LD_DR", 0xF015, 0xF0FF⟩, ⟨"LD_SR", 0xF018, 0xF0FF⟩, ⟨"ADD_IR", 0xF01E, 0xF0FF⟩, ⟨"LD_RF", 0xF029, 0xF0FF⟩,
  ⟨"LD_BR", 0xF033, 0xF0FF⟩, ⟨"LD_IRR", 0xF055, 0xF0FF⟩, ⟨"LD_RRI", 0xF065, 0xF0FF⟩]

/-- The 35 rows of R66. -/
def opcodeMap : List OpcodeRow := opcodeMapTop ++ opcodeMapLowNibble ++ opcodeMapLowByte

/-- The illegal words of R67, by top nibble. -/
def illegalWord (w : Word) : Bool :=
  (fieldOp w == 0x5 && fieldN w != 0)
  || (fieldOp w == 0x8 && [0x8, 0x9, 0xA, 0xB, 0xC, 0xD, 0xF].contains (fieldN w))
  || (fieldOp w == 0x9 && fieldN w != 0)
  || (fieldOp w == 0xE && !([0x9E, 0xA1].contains (fieldKK w)))
  || (fieldOp w == 0xF && !([0x07, 0x0A, 0x15, 0x18, 0x1E, 0x29, 0x33, 0x55, 0x65].contains (fieldKK w)))

end Sys2Proof
end

