-- ==== Sys2Proof/Machine/State.lean ====
section
/-! DEFINITION. The state of the core as plain data: every piece 10_state R26 and R30 list, the parameters a `Reset`
fixes (00_scope R4), and the host's inputs that the step reads (00_scope R9), with the reasons a step can stop. -/

namespace Sys2Proof.Machine

/-- `MEM` as the bytes that differ from the reset contents, addresses strictly rising (`Memory.wf` in Ops). -/
abbrev Memory := List Host.Cell

/-- One row of the framebuffer, column 0 first (10_state R21). -/
abbrev FbRow := Vector Bool 64

/-- `FB[row][col]`, 32 rows of 64 pixels, `true` for on (10_state R21). -/
abbrev FrameBuffer := Vector FbRow 32

/-- A blank grid. -/
def FrameBuffer.blank : FrameBuffer := Vector.replicate 32 (Vector.replicate 64 false)

/-- A rate gate: "target interval (nanoseconds) and timestamp of last fire" (10_state R25, 60_exceptions R183). -/
structure Gate where
  interval : Nat
  lastFire : Nat
deriving DecidableEq, Repr

/-- The two gates of the coordinator (10_state R25). -/
inductive GateId where
  | cpu
  | timer
deriving DecidableEq, Repr

/-- A fatal condition and the info it records (60_exceptions R167). -/
inductive Cause where
  /-- Code 1: the fetch of any step with `PC + 1 > 4095`; records the address. -/
  | fetchBounds (address : Word)
  /-- Code 2: the fetched word is illegal; records the word. -/
  | decodeError (w : Word)
  /-- Code 3: SYS, always; records the word. -/
  | unsupportedOp (w : Word)
  /-- Code 4: DRW, LD_BR, LD_IRR, LD_RRI with an access out of range; records the start address and the length. -/
  | memBounds (start : Word) (length : Nat)
  /-- Code 5: CALL with `SP` = 16. -/
  | stackOverflow
  /-- Code 6: RET with `SP` = 0. -/
  | stackUnderflow
  /-- Code 7: SKP, SKNP with `V[x] > 15`; records the value. -/
  | keyIndex (value : Byte)
deriving DecidableEq, Repr

/-- The record the `FAULT` latch holds: cause, info and the address of the faulting instruction (10_state R24). -/
structure FaultRecord where
  cause : Cause
  pc : Word
deriving DecidableEq, Repr

/-- The kind of a key event (44_input_timers R151). -/
inductive KeyEventKind where
  | press
  | release
deriving DecidableEq, Repr

/-- One entry of an input batch. The index is the host's number, not yet checked to be 0..15 (R151). -/
structure KeyEvent where
  kind : KeyEventKind
  key : Nat
deriving DecidableEq, Repr

/-- The events of 00_scope R7. The byte `rnd` that a `CpuStep` may use is in `State.draws`. -/
inductive Event where
  /-- `Reset(rom, t0)` with the parameters of 00_scope R4. -/
  | reset (config : Config) (rom : List Byte) (t0 : Nat)
  /-- `InputBatch(events)`. -/
  | inputBatch (events : List KeyEvent)
  /-- `CpuStep`. -/
  | cpuStep
  /-- `TimerTick`. -/
  | timerTick
  /-- `GatePoll(g, now)`; its answer is `gatePollAnswer`. -/
  | gatePoll (g : GateId) (now : Nat)
  /-- `RenderAck`. -/
  | renderAck
deriving DecidableEq, Repr

/-- What the host hands the core at one go: the units a schedule is made of (44_input_timers R151, 60_exceptions R189).
A `CpuStep` comes only with the `InputBatch` that immediately precedes it. -/
inductive HostInput where
  /-- `Reset(rom, t0)` with the parameters of 00_scope R4. -/
  | reset (config : Config) (rom : List Byte) (t0 : Nat)
  /-- `InputBatch(events)`, possibly empty, and the `CpuStep` it is applied before. -/
  | cycle (events : List KeyEvent)
  /-- `TimerTick`. -/
  | timerTick
  /-- `GatePoll(g, now)`. -/
  | gatePoll (g : GateId) (now : Nat)
  /-- `RenderAck`. -/
  | renderAck
deriving DecidableEq, Repr

/-- The state of the machine. Rules are of 10_state. -/
structure State where
  /-- `V[0..15]` (R10); `VF` is `V[15]` (R12). -/
  v : Vector Byte 16
  /-- `I` (R13). -/
  i : Word
  /-- `PC` (R14). -/
  pc : Word
  /-- `SP`, 0..16: the number of stack entries in use (R18). -/
  sp : Fin 17
  /-- `STACK[0..15]` (R18); entries at or above `SP` keep their old contents. -/
  stack : Vector Word 16
  /-- `DT`, the delay timer (R19). -/
  dt : Byte
  /-- `ST`, the sound timer (R19). -/
  st : Byte
  /-- `MEM[0..4095]` (R20). -/
  mem : Memory
  /-- `FB` (R21). -/
  fb : FrameBuffer
  /-- `DIRTY` (R22). -/
  dirty : Bool
  /-- `KEYS[0..15]`, `true` for pressed (R23). -/
  keys : Vector Bool 16
  /-- `LAST_KEY` (R23). -/
  lastKey : Option Nibble
  /-- `FAULT` (R24). -/
  fault : Option FaultRecord
  /-- `CPU_GATE` (R25). -/
  cpuGate : Gate
  /-- `TIMER_GATE` (R25). -/
  timerGate : Gate
  /-- The parameters the last `Reset` was given (00_scope R4). -/
  config : Config
  /-- MODEL'S OWN: host inputs not yet delivered, oldest first (log entry 7). -/
  inbox : List HostInput
  /-- MODEL'S OWN: `RND_IN` bytes supplied by the host and not yet drawn, oldest first (log entry 9). -/
  draws : List Byte
  /-- MODEL'S OWN: how many draws RND has taken; it indexes `Config.freeDraw` (log entry 9). -/
  drawIndex : Nat
deriving DecidableEq, Repr

/-- The reasons a step stops with a fault: none. Every fatal condition of this hardware has an effect the spec
describes, the sticky `FAULT` latch (60_exceptions R166), so it is a next state (log entry 1). -/
inductive Fault
deriving DecidableEq, Repr

/-- The reasons a step has no meaning. None of the last two is raised by an instruction. -/
inductive Refusal where
  /-- `exec`'s arm of an instruction without a meaning; no arm of this model answers it. Safe: the model stops. -/
  | notModelled (mnemonic : String)
  /-- `InputBatch` with a key index outside 0..15: "a breach of the host contract and the model gives it no meaning
  (refuse)" (44_input_timers R151, U16). Safe: the model stops. -/
  | keyEventOutOfRange (key : Nat)
  /-- `Reset` with a CPU rate of 0 or above 10^9: "not a legal parameter (refuse)" (60_exceptions R183, U16). Safe: the
  model stops. -/
  | illegalRate (rate : Nat)
deriving DecidableEq, Repr

/-- The machine right after `Reset` (10_state R30, 70_reset_and_hazards R200) with an empty ROM at time 0 and the default
parameters (log entries 2 and 3). Memory lists nothing: every byte is at its reset contents. -/
def State.reset : State where
  v := Vector.replicate 16 0
  i := 0
  pc := 0x200
  sp := 0
  stack := Vector.replicate 16 0
  dt := 0
  st := 0
  mem := []
  fb := FrameBuffer.blank
  dirty := false
  keys := Vector.replicate 16 false
  lastKey := none
  fault := none
  cpuGate := ⟨nanosPerSecond / Config.default.cpuRate, 0⟩
  timerGate := ⟨nanosPerSecond / timerRate, 0⟩
  config := Config.default
  inbox := []
  draws := []
  drawIndex := 0

end Sys2Proof.Machine
end

