-- ==== Sys2Proof/Machine/Ops.lean ====
section
/-! DEFINITION. The named operations over registers, memory, the program counter, the call stack and the fault latch
(00_scope R6, 20_memory R45 to R48, 40_control_flow R81, R82, 60_exceptions R166). -/

namespace Sys2Proof.Machine

/-- What an instruction or an event answers. -/
abbrev Result := Host.Outcome State Fault Refusal

/-! ### General registers (10_state R10, R12) -/

/-- `V[x]`. -/
def State.getV (s : State) (x : Reg) : Byte := s.v[x]

/-- `V[x] <- b`. No register is hardwired (R10). -/
def State.setV (s : State) (x : Reg) (b : Byte) : State := { s with v := s.v.set x b }

/-- `VF`, another name for `V[15]` (00_scope R6). -/
def regVF : Reg := 15

/-- The value of `I`, a number used as an address (R13). -/
def State.setI (s : State) (w : Word) : State := { s with i := w }

/-! ### Program counter (40_control_flow R81, R82) -/

/-- `PC <- target`. -/
def State.setPc (s : State) (w : Word) : State := { s with pc := w }

/-- The advance that precedes every instruction's own effect: `PC <- p + 2` (R81). No sum of a reachable state wraps
(10_state R17; log entry 10). -/
def State.advance (s : State) : State := s.setPc (s.pc + 2)

/-- A skip whose condition holds adds 2 more (R82). -/
def State.skipIf (s : State) (cond : Bool) : State := if cond then s.setPc (s.pc + 2) else s

/-- The key wait's rewind: `PC <- PC - 2` (44_input_timers R154). -/
def State.rewind (s : State) : State := s.setPc (s.pc - 2)

/-! ### Faults (60_exceptions R166) -/

/-- `raise C(info)` in a step that began in `s`: every change of the step is discarded and the latch records the cause
and the address of the instruction (R166, R170). The argument is the state the step BEGAN in. -/
def raise (c : Cause) (s : State) : Result := .next { s with fault := some ⟨c, s.pc⟩ }

/-- The core is halted: `FAULT` is set (R166). -/
def State.halted (s : State) : Bool := s.fault.isSome

/-- The code of a cause (R167). -/
def Cause.code : Cause → Nat
  | .fetchBounds _ => 1
  | .decodeError _ => 2
  | .unsupportedOp _ => 3
  | .memBounds _ _ => 4
  | .stackOverflow => 5
  | .stackUnderflow => 6
  | .keyIndex _ => 7

/-! ### Memory (20_memory R40 to R48) -/

/-- What an address that memory does not list reads as: its reset contents, `FONT` at 0..79 and zero elsewhere
(R41, R43; 70_reset_and_hazards R200; log entries 5 and 6). -/
def background (c : Config) (a : Nat) : Byte := if h : a < 80 then c.font[a] else 0

/-- `MEM[a]`. -/
def Memory.read (c : Config) : Memory → Nat → Byte
  | [], a => background c a
  | (b, w) :: rest, a => if b = a then w else Memory.read c rest a

/-- `MEM[a] <- v`, in canonical form: the entry is dropped when `v` is what the address reads as unlisted. -/
def Memory.write (c : Config) : Memory → Nat → Byte → Memory
  | [], a, v => if v = background c a then [] else [(a, v)]
  | (b, w) :: rest, a, v =>
    if a < b then (if v = background c a then (b, w) :: rest else (a, v) :: (b, w) :: rest)
    else if a = b then (if v = background c a then rest else (a, v) :: rest)
    else (b, w) :: Memory.write c rest a v

/-- `MEM[a + k] <- bytes[k]` for every `k` (R47), with no range check. -/
def Memory.writeList (c : Config) : Memory → Nat → List Byte → Memory
  | m, _, [] => m
  | m, a, b :: bs => Memory.writeList c (Memory.write c m a b) (a + 1) bs

/-- Canonical form: addresses strictly rising and inside the memory, no entry equal to what its address reads as
unlisted. -/
def Memory.wf (c : Config) (m : Memory) : Bool :=
  decide (m.Pairwise fun p q => p.1 < q.1) && m.all fun p => decide (p.1 < memSize) && p.2 != background c p.1

/-- The range check of an access of `n` bytes at `a`, over unbounded integers (R45). -/
def inRange (a n : Nat) : Bool := n == 0 || decide (a + n - 1 ≤ 4095)

/-- `MEM[a]` of a state. -/
def State.readByte (s : State) (a : Nat) : Byte := s.mem.read s.config a

/-- `MemRead(a, n)` (R46); `none` where it raises `MemBounds`. -/
def State.memRead (s : State) (a n : Nat) : Option (List Byte) :=
  if inRange a n then some ((List.range n).map fun k => s.readByte (a + k)) else none

/-- `MemWrite(a, n, bytes)` with `n` the number of bytes (R47); `none` where it raises `MemBounds`. -/
def State.memWrite (s : State) (a : Nat) (bytes : List Byte) : Option State :=
  if inRange a bytes.length then some { s with mem := s.mem.writeList s.config a bytes } else none

/-- `Fetch(PC)`: two consecutive bytes, the first one high (R48, R49); `none` where it raises `FetchBounds`. -/
def State.fetch (s : State) : Option Word :=
  let p := s.pc.toNat
  if p + 1 > 4095 then none else some (wordOfBytes (s.readByte p) (s.readByte (p + 1)))

/-! ### Call stack (10_state R18) -/

/-- `STACK[SP] <- w; SP <- SP + 1`; `none` when all 16 entries are in use (40_control_flow R85). -/
def State.push (s : State) (w : Word) : Option State :=
  if h : s.sp.val < 16 then some { s with stack := s.stack.set s.sp.val w, sp := ⟨s.sp.val + 1, by omega⟩ } else none

/-- `SP <- SP - 1`, and the entry that was on top; `none` when the stack is empty (40_control_flow R84). -/
def State.pop (s : State) : Option (Word × State) :=
  if h : s.sp.val = 0 then none
  else some (s.stack[s.sp.val - 1]'(by omega), { s with sp := ⟨s.sp.val - 1, by omega⟩ })

/-! ### Timers (10_state R19) -/

/-- `DT <- b`. -/
def State.setDt (s : State) (b : Byte) : State := { s with dt := b }

/-- `ST <- b`. -/
def State.setSt (s : State) (b : Byte) : State := { s with st := b }

/-! ### The random input (00_scope R9, 41_alu R113) -/

/-- The byte the next RND draws: the one the host supplied, else a free value (log entry 9). -/
def State.draw (s : State) : Byte :=
  match s.draws with
  | d :: _ => d
  | [] => Config.freeDraw s.drawIndex

/-- The draw is taken: the next RND gets a fresh one. -/
def State.takeDraw (s : State) : State := { s with draws := s.draws.tail, drawIndex := s.drawIndex + 1 }

/-! ### Placing a word where the next step fetches -/

/-- `s` with nothing that keeps the next step from fetching: no latched fault, no event waiting, and a `PC` that a fetch
can read from (log entry 17). -/
def State.fetchReady (s : State) : State :=
  { s with fault := none, inbox := [], pc := if s.pc.toNat + 1 > 4095 then BitVec.ofNat 16 progBase else s.pc }

/-- `s` with the two bytes of `w` in memory at `PC` and `PC + 1`. -/
def State.placeWord (s : State) (w : Word) : State :=
  { s with mem := s.mem.writeList s.config s.pc.toNat (bytesOfWord w) }

end Sys2Proof.Machine
end

