-- ==== Sys2Proof/Machine/Flags.lean ====
section
/-! DEFINITION. The flag outputs of 10_state R12 and 41_alu R106: what VF receives. Operands are read as unsigned
integers, before any write of the instruction (R106). -/

namespace Sys2Proof.Machine

/-- A flag as the byte VF receives: 1 or 0 (R12). -/
def flagByte (b : Bool) : Byte := if b then 1 else 0

/-- ADD_RR: 1 iff `a + b >= 256` (R106, R107). -/
def carryOut (a b : Byte) : Byte := flagByte (decide (a.toNat + b.toNat ≥ 256))

/-- SUB_RR with minuend `a`, SUBN with minuend `V[y]`: 1 iff there is no borrow, equality counting as none
(R106, R108, R110). -/
def noBorrow (a b : Byte) : Byte := flagByte (decide (a.toNat ≥ b.toNat))

/-- SHR: the bit shifted out, bit 0 (R109). -/
def lowBitOut (a : Byte) : Byte := flagByte (a.getLsbD 0)

/-- SHL: the bit shifted out, bit 7 (R111). -/
def highBitOut (a : Byte) : Byte := flagByte (a.getLsbD 7)

/-- `V[15] <- flag`. -/
def State.setFlag (s : State) (f : Byte) : State := s.setV regVF f

end Sys2Proof.Machine
end

