-- ==== Sys2Proof/Machine/Operands.lean ====
section
/-! DEFINITION. Operand forms: literals widened to 16 bits (30_encoding R63), the one addressing mode `I + k`
(42_index_memory R122), glyph addresses (R123), decimal digits (R124), register ranges (R125, R126), key indexes
(44_input_timers R152). -/

namespace Sys2Proof.Machine

/-- `zext_16(nnn)` (00_scope R6). -/
def zext12 (nnn : Addr12) : Word := nnn.setWidth 16

/-- `zext_16` of a byte (00_scope R6). -/
def zext8 (b : Byte) : Word := b.setWidth 16

/-- The effective address of byte `k` of an access: `I + k`, an unbounded integer (42_index_memory R122). -/
def State.effectiveAddress (s : State) (k : Nat) : Nat := s.i.toNat + k

/-- The glyph index LD_RF takes from a register (42_index_memory R123, decision D19). -/
def glyphIndex (mask : FontIndexMask) (v : Byte) : Byte :=
  match mask with
  | .whole => v
  | .lowNibble => v &&& 0x0F

/-- `5 * zext_16(g)`: the address LD_RF puts in `I` (R123). -/
def glyphAddress (mask : FontIndexMask) (v : Byte) : Word := 5 * zext8 (glyphIndex mask v)

/-- `[v div 100, (v div 10) mod 10, v mod 10]`: hundreds, tens, ones (R124). -/
def bcdDigits (v : Byte) : List Byte :=
  [BitVec.ofNat 8 (v.toNat / 100), BitVec.ofNat 8 (v.toNat / 10 % 10), BitVec.ofNat 8 (v.toNat % 10)]

/-- `[V[0], .., V[x]]` (R125). -/
def State.regsThrough (s : State) (x : Reg) : List Byte := s.v.toList.take (x.val + 1)

/-- `V[k] <- b[k]` for `k` from 0 up, as far as the bytes go (R126). -/
def State.loadRegs (s : State) (bytes : List Byte) : State :=
  ((List.finRange 16).zip bytes).foldl (fun t p => t.setV p.1 p.2) s

/-- The key a register names; `none` where SKP and SKNP raise `KeyIndex` (44_input_timers R152). -/
def keyOf (v : Byte) : Option Nibble := if h : v.toNat < 16 then some ⟨v.toNat, h⟩ else none

/-- `KEYS[k]`, the query `is_pressed(k)` (44_input_timers R150). -/
def State.isPressed (s : State) (k : Nibble) : Bool := s.keys[k]

end Sys2Proof.Machine
end

