-- ==== Sys2Proof/Machine/Alu.lean ====
section
/-! DEFINITION. Register load, arithmetic, logic, shift and random instructions (41_alu R100 to R113). None of them
faults. The order of the two writes of a flag-writing instruction is the text's (R112): it matters when `x` = 15. -/

namespace Sys2Proof.Machine

/-- LD_RV Vx, kk (R100). -/
def execLdRV (x : Reg) (kk : Byte) (s : State) : Result := .next (s.advance.setV x kk)

/-- ADD_RV Vx, kk (R101): modulo 256, no flag. -/
def execAddRV (x : Reg) (kk : Byte) (s : State) : Result := .next (s.advance.setV x (s.getV x + kk))

/-- LD_RR Vx, Vy (R102). -/
def execLdRR (x y : Reg) (s : State) : Result := .next (s.advance.setV x (s.getV y))

/-- OR Vx, Vy (R103): no flag. -/
def execOr (x y : Reg) (s : State) : Result := .next (s.advance.setV x (s.getV x ||| s.getV y))

/-- AND Vx, Vy (R104): no flag. -/
def execAnd (x y : Reg) (s : State) : Result := .next (s.advance.setV x (s.getV x &&& s.getV y))

/-- XOR Vx, Vy (R105): no flag. -/
def execXor (x y : Reg) (s : State) : Result := .next (s.advance.setV x (s.getV x ^^^ s.getV y))

/-- Result first, flag second: the shape of ADD_RR, SUB_RR and SUBN (R112). -/
def resultThenFlag (x : Reg) (result flag : Byte) (s : State) : State := (s.setV x result).setFlag flag

/-- ADD_RR Vx, Vy (R107). -/
def execAddRR (x y : Reg) (s : State) : Result :=
  .next (resultThenFlag x (s.getV x + s.getV y) (carryOut (s.getV x) (s.getV y)) s.advance)

/-- SUB_RR Vx, Vy (R108). -/
def execSubRR (x y : Reg) (s : State) : Result :=
  .next (resultThenFlag x (s.getV x - s.getV y) (noBorrow (s.getV x) (s.getV y)) s.advance)

/-- SUBN Vx, Vy (R110): the minuend is `V[y]`. -/
def execSubn (x y : Reg) (s : State) : Result :=
  .next (resultThenFlag x (s.getV y - s.getV x) (noBorrow (s.getV y) (s.getV x)) s.advance)

/-- SHR Vx (R109): the flag is written first, then the register is read and halved. `y` is not used (R69). -/
def execShr (x _y : Reg) (s : State) : Result :=
  let t := s.advance.setFlag (lowBitOut (s.getV x))
  .next (t.setV x (t.getV x >>> 1))

/-- SHL Vx (R111): the flag is written first, then the register is read and doubled. `y` is not used (R69). -/
def execShl (x _y : Reg) (s : State) : Result :=
  let t := s.advance.setFlag (highBitOut (s.getV x))
  .next (t.setV x (t.getV x <<< 1))

/-- RND Vx, kk (R113): the draw masked with `kk`; each executed RND takes a fresh draw. -/
def execRnd (x : Reg) (kk : Byte) (s : State) : Result := .next (s.advance.takeDraw.setV x (s.draw &&& kk))

end Sys2Proof.Machine
end

