-- ==== Sys2Proof/Machine/ControlFlow.lean ====
section
/-! DEFINITION. The control-flow instructions (40_control_flow R83 to R91). Each meaning takes the state the step began
in; it advances `PC` first (R81). -/

namespace Sys2Proof.Machine

/-- SYS nnn (R83): always `raise UnsupportedOp(w)`, with `w` the word `0nnn`. -/
def execSys (nnn : Addr12) (s : State) : Result := raise (.unsupportedOp (encode (.sys nnn))) s

/-- RET (R84): the popped entry goes to `PC`. -/
def execRet (s : State) : Result :=
  match s.advance.pop with
  | none => raise .stackUnderflow s
  | some (w, t) => .next (t.setPc w)

/-- JP nnn (R86). -/
def execJp (nnn : Addr12) (s : State) : Result := .next (s.advance.setPc (zext12 nnn))

/-- CALL nnn (R85): pushes the address of the following instruction. -/
def execCall (nnn : Addr12) (s : State) : Result :=
  match s.advance.push s.advance.pc with
  | none => raise .stackOverflow s
  | some t => .next (t.setPc (zext12 nnn))

/-- SE_RV Vx, kk (R88). -/
def execSeRV (x : Reg) (kk : Byte) (s : State) : Result := .next (s.advance.skipIf (s.getV x == kk))

/-- SNE_RV Vx, kk (R89). -/
def execSneRV (x : Reg) (kk : Byte) (s : State) : Result := .next (s.advance.skipIf (s.getV x != kk))

/-- SE_RR Vx, Vy (R90). -/
def execSeRR (x y : Reg) (s : State) : Result := .next (s.advance.skipIf (s.getV x == s.getV y))

/-- SNE_RR Vx, Vy (R91). -/
def execSneRR (x y : Reg) (s : State) : Result := .next (s.advance.skipIf (s.getV x != s.getV y))

/-- JP_RV nnn (R87): `nnn + V[0]`, not reduced and not checked here. -/
def execJpRV (nnn : Addr12) (s : State) : Result := .next (s.advance.setPc (zext12 nnn + zext8 (s.getV 0)))

end Sys2Proof.Machine
end

