-- ==== Sys2Proof/Machine/Framebuffer.lean ====
section
/-! DEFINITION. The display buffer's two operations, `draw_sprite` and `clear` (43_display R135 to R139). -/

namespace Sys2Proof.Machine

/-- The pixel addressed by (`cx`, `cy`): `FB[cy mod 32][cx mod 64]`; nothing is clipped (R135). -/
def FrameBuffer.pixel (fb : FrameBuffer) (cx cy : Nat) : Bool :=
  (fb[cy % 32]'(Nat.mod_lt _ (by decide)))[cx % 64]'(Nat.mod_lt _ (by decide))

/-- The pixel addressed by (`cx`, `cy`) exclusive-or 1. -/
def FrameBuffer.flip (fb : FrameBuffer) (cx cy : Nat) : FrameBuffer :=
  fb.set (cy % 32)
    ((fb[cy % 32]'(Nat.mod_lt _ (by decide))).set (cx % 64) (!fb.pixel cx cy) (Nat.mod_lt _ (by decide)))
    (Nat.mod_lt _ (by decide))

/-- The bit of a sprite row at column offset `c`, 0..7: bit `7 - c`, most significant bit leftmost (R136). -/
def spriteBit (b : Byte) (c : Nat) : Bool := b.getLsbD (7 - c)

/-- One turn of the inner loop of R137: the buffer and the collision found so far. -/
def blitPixel (cx cy : Nat) (bit : Bool) (acc : FrameBuffer × Bool) : FrameBuffer × Bool :=
  if bit then (acc.1.flip cx cy, acc.2 || acc.1.pixel cx cy) else acc

/-- The inner loop of R137: one sprite row at row `cy`, column offsets 0 to 7. -/
def blitRow (cx cy : Nat) (b : Byte) (acc : FrameBuffer × Bool) : FrameBuffer × Bool :=
  (List.range 8).foldl (fun a c => blitPixel (cx + c) cy (spriteBit b c) a) acc

/-- The outer loop of R137: the rows of the sprite from row `cy` down. -/
def blitRows (cx : Nat) : Nat → List Byte → FrameBuffer × Bool → FrameBuffer × Bool
  | _, [], acc => acc
  | cy, b :: bs, acc => blitRows cx (cy + 1) bs (blitRow cx cy b acc)

/-- `draw_sprite(vx, vy, bytes)`: the state after it, `DIRTY` set, and the collision (R137). -/
def State.drawSprite (s : State) (vx vy : Byte) (bytes : List Byte) : State × Bool :=
  let r := blitRows vx.toNat vy.toNat bytes (s.fb, false)
  ({ s with fb := r.1, dirty := true }, r.2)

/-- `clear()`: all pixels off, `DIRTY` set (R139). -/
def State.clear (s : State) : State := { s with fb := FrameBuffer.blank, dirty := true }

end Sys2Proof.Machine
end

