-- ==== Sys2Proof/Machine/Display.lean ====
section
/-! DEFINITION. The display instructions CLS and DRW (43_display R140, R141). -/

namespace Sys2Proof.Machine

/-- CLS (R140). -/
def execCls (s : State) : Result := .next s.advance.clear

/-- DRW Vx, Vy, n (R141): the coordinates are read before VF is written; VF is the collision. -/
def execDrw (x y : Reg) (n : Nibble) (s : State) : Result :=
  match s.memRead (s.effectiveAddress 0) n.val with
  | none => raise (.memBounds s.i n.val) s
  | some bytes =>
    let r := s.advance.drawSprite (s.getV x) (s.getV y) bytes
    .next (r.1.setFlag (flagByte r.2))

end Sys2Proof.Machine
end

