-- ==== Sys2Proof/Machine/IndexMemory.lean ====
section
/-! DEFINITION. The address register and the instructions that move bytes through it (42_index_memory R120 to R126).
`I` is unchanged by every access (R122). The whole range is checked before any byte moves (20_memory R45). -/

namespace Sys2Proof.Machine

/-- LD_IV nnn (R120). -/
def execLdIV (nnn : Addr12) (s : State) : Result := .next (s.advance.setI (zext12 nnn))

/-- ADD_IR Vx (R121): modulo 65536, no flag. -/
def execAddIR (x : Reg) (s : State) : Result := .next (s.advance.setI (s.i + zext8 (s.getV x)))

/-- LD_RF Vx (R123). -/
def execLdRF (x : Reg) (s : State) : Result :=
  .next (s.advance.setI (glyphAddress s.config.fontIndexMask (s.getV x)))

/-- Store `bytes` at `I` onward, or `raise MemBounds(I, n)`: the shape of LD_BR and LD_IRR (R124, R125). -/
def storeAtI (bytes : List Byte) (s : State) : Result :=
  match s.advance.memWrite (s.effectiveAddress 0) bytes with
  | none => raise (.memBounds s.i bytes.length) s
  | some t => .next t

/-- LD_BR Vx (R124): the decimal digits of `V[x]`. -/
def execLdBR (x : Reg) (s : State) : Result := storeAtI (bcdDigits (s.getV x)) s

/-- LD_IRR Vx (R125): `V[0]` to `V[x]`. -/
def execLdIRR (x : Reg) (s : State) : Result := storeAtI (s.regsThrough x) s

/-- LD_RRI Vx (R126): `V[0]` to `V[x]` from memory; every byte is read before any register is written. -/
def execLdRRI (x : Reg) (s : State) : Result :=
  match s.memRead (s.effectiveAddress 0) (x.val + 1) with
  | none => raise (.memBounds s.i (x.val + 1)) s
  | some bytes => .next (s.advance.loadRegs bytes)

end Sys2Proof.Machine
end

