-- ==== Sys2Proof/Machine/InputTimers.lean ====
section
/-! DEFINITION. The keypad and timer instructions (44_input_timers R152 to R157). -/

namespace Sys2Proof.Machine

/-- SKP Vx (R152): skip if the key is down. -/
def execSkp (x : Reg) (s : State) : Result :=
  match keyOf (s.getV x) with
  | none => raise (.keyIndex (s.getV x)) s
  | some k => .next (s.advance.skipIf (s.isPressed k))

/-- SKNP Vx (R153): skip if the key is up. -/
def execSknp (x : Reg) (s : State) : Result :=
  match keyOf (s.getV x) with
  | none => raise (.keyIndex (s.getV x)) s
  | some k => .next (s.advance.skipIf (!s.isPressed k))

/-- LD_RK Vx (R154): the key of the last press of the batch, or the busy retry. -/
def execLdRK (x : Reg) (s : State) : Result :=
  match s.lastKey with
  | none => .next s.advance.rewind
  | some k => .next (s.advance.setV x (BitVec.ofNat 8 k.val))

/-- LD_RD Vx (R155). -/
def execLdRD (x : Reg) (s : State) : Result := .next (s.advance.setV x s.dt)

/-- LD_DR Vx (R156). -/
def execLdDR (x : Reg) (s : State) : Result := .next (s.advance.setDt (s.getV x))

/-- LD_SR Vx (R157). -/
def execLdSR (x : Reg) (s : State) : Result := .next (s.advance.setSt (s.getV x))

end Sys2Proof.Machine
end

