-- ==== Sys2Proof/Machine/Dispatch.lean ====
section
/-! DEFINITION. One arm per instruction, each a direct call of its meaning. -/

namespace Sys2Proof.Machine

/-- What executing one decoded instruction does, from the state the step began in (40_control_flow R80). -/
def exec (i : Instr) (s : State) : Host.Outcome State Fault Refusal :=
  match i with
  | .sys nnn => Sys2Proof.Machine.execSys nnn s
  | .cls => Sys2Proof.Machine.execCls s
  | .ret => Sys2Proof.Machine.execRet s
  | .jp nnn => Sys2Proof.Machine.execJp nnn s
  | .call nnn => Sys2Proof.Machine.execCall nnn s
  | .seRV x kk => Sys2Proof.Machine.execSeRV x kk s
  | .sneRV x kk => Sys2Proof.Machine.execSneRV x kk s
  | .seRR x y => Sys2Proof.Machine.execSeRR x y s
  | .ldRV x kk => Sys2Proof.Machine.execLdRV x kk s
  | .addRV x kk => Sys2Proof.Machine.execAddRV x kk s
  | .ldRR x y => Sys2Proof.Machine.execLdRR x y s
  | .or x y => Sys2Proof.Machine.execOr x y s
  | .and x y => Sys2Proof.Machine.execAnd x y s
  | .xor x y => Sys2Proof.Machine.execXor x y s
  | .addRR x y => Sys2Proof.Machine.execAddRR x y s
  | .subRR x y => Sys2Proof.Machine.execSubRR x y s
  | .shr x y => Sys2Proof.Machine.execShr x y s
  | .subn x y => Sys2Proof.Machine.execSubn x y s
  | .shl x y => Sys2Proof.Machine.execShl x y s
  | .sneRR x y => Sys2Proof.Machine.execSneRR x y s
  | .ldIV nnn => Sys2Proof.Machine.execLdIV nnn s
  | .jpRV nnn => Sys2Proof.Machine.execJpRV nnn s
  | .rnd x kk => Sys2Proof.Machine.execRnd x kk s
  | .drw x y n => Sys2Proof.Machine.execDrw x y n s
  | .skp x => Sys2Proof.Machine.execSkp x s
  | .sknp x => Sys2Proof.Machine.execSknp x s
  | .ldRD x => Sys2Proof.Machine.execLdRD x s
  | .ldRK x => Sys2Proof.Machine.execLdRK x s
  | .ldDR x => Sys2Proof.Machine.execLdDR x s
  | .ldSR x => Sys2Proof.Machine.execLdSR x s
  | .addIR x => Sys2Proof.Machine.execAddIR x s
  | .ldRF x => Sys2Proof.Machine.execLdRF x s
  | .ldBR x => Sys2Proof.Machine.execLdBR x s
  | .ldIRR x => Sys2Proof.Machine.execLdIRR x s
  | .ldRRI x => Sys2Proof.Machine.execLdRRI x s

end Sys2Proof.Machine
end

