-- ==== Sys2Proof/Machine/Coordinator.lean ====
section
/-! DEFINITION. The cycle coordinator: two rate gates and the delays the host loop asks for (60_exceptions R183 to
R187). Times are natural numbers of nanoseconds (R185). -/

namespace Sys2Proof.Machine

/-- `gate(r, t0)`: the interval is `10^9 div r`, the last fire `t0` (R183). -/
def Gate.ofRate (r t0 : Nat) : Gate := ⟨nanosPerSecond / r, t0⟩

/-- The gate is due: the clock has not gone back and at least one interval has passed since the last fire
(R183, R184, R185). -/
def Gate.due (g : Gate) (now : Nat) : Bool := decide (now ≥ g.lastFire ∧ now - g.lastFire ≥ g.interval)

/-- `delay_until_cycle(g, now)`: `max(0, last_fire + interval - now)` (R186); subtraction on naturals stops at 0. -/
def Gate.delayUntil (g : Gate) (now : Nat) : Nat := g.lastFire + g.interval - now

/-- `smallest_delay_until_cycle(gates, now)` (R187); of no gates it has no value (U17). -/
def smallestDelay (gates : List Gate) (now : Nat) : Option Nat := (gates.map fun g => g.delayUntil now).min?

/-- A gate of the state. -/
def State.gate (s : State) : GateId → Gate
  | .cpu => s.cpuGate
  | .timer => s.timerGate

/-- Write a gate of the state. -/
def State.setGate (s : State) (g : GateId) (v : Gate) : State :=
  match g with
  | .cpu => { s with cpuGate := v }
  | .timer => { s with timerGate := v }

/-- The answer of `GatePoll(g, now)`: false while a fault is latched (R184, R166). -/
def State.gatePollAnswer (s : State) (g : GateId) (now : Nat) : Bool := !s.halted && (s.gate g).due now

/-- The state after `GatePoll(g, now)`: a gate that fires takes `now` as its last fire (R184). -/
def State.gatePoll (s : State) (g : GateId) (now : Nat) : State :=
  if s.gatePollAnswer g now then s.setGate g ⟨(s.gate g).interval, now⟩ else s

/-- The host loop's sleep (R187, R188): the smaller delay of the two gates. -/
def State.sleepDelay (s : State) (now : Nat) : Nat := min (s.cpuGate.delayUntil now) (s.timerGate.delayUntil now)

end Sys2Proof.Machine
end

