-- ==== Sys2Proof/Machine/Events.lean ====
section
/-! DEFINITION. The events that are no instruction step: InputBatch (44_input_timers R151), TimerTick (60_exceptions
R180), RenderAck (43_display R139) and Reset (70_reset_and_hazards R200). While a fault is latched all but Reset change
nothing (60_exceptions R166). -/

namespace Sys2Proof.Machine

/-- One press or release of the loop of R151. A press sets the key and `LAST_KEY`, a release clears the key. -/
def State.keyEvent (s : State) (kind : KeyEventKind) (k : Nibble) : State :=
  match kind with
  | .press => { s with keys := s.keys.set k true, lastKey := some k }
  | .release => { s with keys := s.keys.set k false }

/-- The loop of R151 over the events in order; an index outside 0..15 has no meaning (R151: refuse). -/
def State.applyKeyEvents : State → List KeyEvent → Result
  | s, [] => .next s
  | s, e :: es =>
    if h : e.key < 16 then State.applyKeyEvents (s.keyEvent e.kind ⟨e.key, h⟩) es
    else .refused (.keyEventOutOfRange e.key)

/-- `InputBatch(events)`: `LAST_KEY <- none`, then the events (R151). -/
def inputBatch (events : List KeyEvent) (s : State) : Result :=
  if s.halted then .next s else State.applyKeyEvents { s with lastKey := none } events

/-- A timer after one tick: one less, and zero stays zero (R180). -/
def tick (b : Byte) : Byte := if b = 0 then 0 else b - 1

/-- `TimerTick`: both timers in the same tick (R180). -/
def timerTick (s : State) : State := if s.halted then s else { s with dt := tick s.dt, st := tick s.st }

/-- `RenderAck`: `DIRTY <- 0` (R139). -/
def renderAck (s : State) : State := if s.halted then s else { s with dirty := false }

/-- `Reset(rom, t0)` with the parameters `c` (R200): the reset state, the program loaded at 0x200 and truncated to the
capacity (20_memory R58), both gates made anew. -/
def resetState (c : Config) (rom : List Byte) (t0 : Nat) : State :=
  { State.reset with
    config := c
    mem := Memory.writeList c [] progBase (rom.take progCapacity)
    cpuGate := Gate.ofRate c.cpuRate t0
    timerGate := Gate.ofRate timerRate t0 }

/-- The `Reset` event in a running machine: the only event that works while a fault is latched (R200). The host's own
inputs, not state of the core (00_scope R9), stay (log entry 7). An illegal rate has no meaning (60_exceptions R183). -/
def resetEvent (c : Config) (rom : List Byte) (t0 : Nat) (s : State) : Result :=
  if c.wellFormed then
    .next { resetState c rom t0 with inbox := s.inbox, draws := s.draws, drawIndex := s.drawIndex }
  else .refused (.illegalRate c.cpuRate)

end Sys2Proof.Machine
end

