-- ==== Sys2Proof/Machine/Cycle.lean ====
section
/-! DEFINITION. The `CpuStep` event (40_control_flow R80) the delivery of one event of 00_scope R7,
and the delivery of one input of the host: a `CpuStep` only behind its `InputBatch` (44_input_timers R151). -/

namespace Sys2Proof.Machine

/-- Decode and execute the word fetched (R80): an illegal word raises `DecodeError` carrying the word (30_encoding R67). -/
def runWord (w : Word) (s : State) : Result :=
  match decodeWord w with
  | .error _ => raise (.decodeError w) s
  | .ok i => exec i s

/-- `CpuStep` (R80): halted, it does nothing; else fetch, decode, execute. -/
def cpuStep (s : State) : Result :=
  if s.halted then .next s
  else
    match s.fetch with
    | none => raise (.fetchBounds s.pc) s
    | some w => runWord w s

/-- One event of 00_scope R7, run to completion (R8). -/
def deliver (e : Event) (s : State) : Result :=
  match e with
  | .reset c rom t0 => resetEvent c rom t0 s
  | .inputBatch events => inputBatch events s
  | .cpuStep => cpuStep s
  | .timerTick => .next (timerTick s)
  | .gatePoll g now => .next (s.gatePoll g now)
  | .renderAck => .next (renderAck s)

/-- Events one after another, each run to completion (00_scope R8). -/
def deliverAll : List Event → State → Result
  | [], s => .next s
  | e :: rest, s =>
    match deliver e s with
    | .next t => deliverAll rest t
    | .fault r => .fault r
    | .refused r => .refused r

/-- The events of a host input, in order: one batch before each `CpuStep` (44_input_timers R151). -/
def HostInput.events : HostInput → List Event
  | .reset c rom t0 => [.reset c rom t0]
  | .cycle events => [.inputBatch events, .cpuStep]
  | .timerTick => [.timerTick]
  | .gatePoll g now => [.gatePoll g now]
  | .renderAck => [.renderAck]

/-- The next input of the machine and the state with it taken: the oldest waiting one, or a cycle with the empty batch when
none waits (log entries 7 and 8). -/
def State.takeInput (s : State) : HostInput × State :=
  match s.inbox with
  | [] => (.cycle [], s)
  | u :: rest => (u, { s with inbox := rest })

/-- The events of the next input, delivered. -/
def nextInput (s : State) : Result := deliverAll s.takeInput.1.events s.takeInput.2

end Sys2Proof.Machine
end

