-- ==== Sys2Proof/Machine/Step.lean ====
section
/-! DEFINITION. One step of the model: one input of the host. -/

namespace Sys2Proof.Machine

/-- One step: the oldest host input in the inbox, or, with the inbox empty, an empty `InputBatch` and the `CpuStep` it
precedes (44_input_timers R151, 60_exceptions R189; log entries 7 and 8). -/
def step : State → Host.Outcome State Fault Refusal := nextInput

/-- `s` with the word placed at its `PC`, ready to be fetched by the very next step (log entry 17). -/
def State.withFetchWord (s : State) (nbits w : Nat) : State := s.fetchReady.placeWord (tableWord nbits w)

end Sys2Proof.Machine
end

