-- ==== Sys2Proof/Machine/HostLoop.lean ====
section
/-! DEFINITION. The queries the core exposes to the host (60_exceptions R190 to R194, 44_input_timers R150) and one
iteration of the host loop (60_exceptions R188). No query changes state (R190). -/

namespace Sys2Proof.Machine

/-- The render port's grid, the read-only view `borrow_display()` (R191, 43_display R139). -/
def State.display (s : State) : FrameBuffer := s.fb

/-- `TONE` = 1 iff `ST > 0` (R192). -/
def State.tone (s : State) : Bool := decide (s.st.toNat > 0)

/-- The "most recent press" query (44_input_timers R150). -/
def State.mostRecentPress (s : State) : Option Nibble := s.lastKey

/-- What the snapshot port shows (R194). -/
structure Snapshot where
  v : Vector Byte 16
  i : Word
  pc : Word
  sp : Fin 17
  stack : Vector Word 16
  dt : Byte
  st : Byte
  fault : Option FaultRecord
deriving DecidableEq, Repr

/-- The register/timer snapshot (R194). -/
def State.snapshot (s : State) : Snapshot := ⟨s.v, s.i, s.pc, s.sp, s.stack, s.dt, s.st, s.fault⟩

/-- `MEM` as the snapshot port reads it: nothing outside 0..4095 (R194). -/
def State.snapshotMem (s : State) (a : Nat) : Option Byte := if a < memSize then some (s.readByte a) else none

/-- What one iteration shows the host: the grid it renders if `DIRTY` was set, the tone, the time to sleep (R188). -/
structure HostReport where
  rendered : Option FrameBuffer
  tone : Bool
  sleep : Nat
deriving DecidableEq, Repr

/-- The CPU part of an iteration: if the CPU gate fires, the input batch and one `CpuStep` (R188). -/
def iterationCpu (now : Nat) (events : List KeyEvent) (s : State) : Result :=
  if s.gatePollAnswer .cpu now then deliverAll (HostInput.cycle events).events (s.gatePoll .cpu now) else .next s

/-- The timer part of an iteration: if the timer gate fires, one tick (R188). -/
def iterationTimer (now : Nat) (s : State) : State :=
  if s.gatePollAnswer .timer now then timerTick (s.gatePoll .timer now) else s

/-- The rest of an iteration: render and acknowledge if dirty, set the tone, sleep (R188). -/
def iterationHost (now : Nat) (s : State) : State × HostReport :=
  let t := if s.dirty then renderAck s else s
  (t, ⟨if s.dirty then some s.display else none, t.tone, t.sleepDelay now⟩)

/-- `iteration(now1, now2, now3, events, rnd)` (R188); the draw is in `State.draws`. -/
def hostIteration (now1 now2 now3 : Nat) (events : List KeyEvent) (s : State) :
    Host.Outcome (State × HostReport) Fault Refusal :=
  match iterationCpu now1 events s with
  | .next t => .next (iterationHost now3 (iterationTimer now2 t))
  | .fault r => .fault r
  | .refused r => .refused r

end Sys2Proof.Machine
end

