-- ==== Sys2Proof/Safety.lean ====
section
/-! DEFINITION. The terms claims are stated in: healthy states and runs, the invariant of reachable states (10_state
R29), the spec's tables of who faults when (60_exceptions R167) and who writes what (10_state R11, R13, R18, R19, R21;
20_memory R51), legal schedules (60_exceptions R189), the end of a run (70_reset_and_hazards R214). -/

namespace Sys2Proof.Machine

/-! ### Healthy runs -/

/-- No fault is latched. "A faulted state is never a successful end of a program" (60_exceptions R166). -/
def State.healthy (s : State) : Bool := s.fault.isNone

/-- `k` steps from `s`, every state on the way healthy and no step refused. -/
def staysHealthy : Nat → State → Bool
  | 0, s => s.healthy
  | k + 1, s =>
    s.healthy && match step s with
      | .next t => staysHealthy k t
      | .fault _ => false
      | .refused _ => false

/-- `k` steps from `s`, one after another. -/
def stepMany : Nat → State → Result
  | 0, s => .next s
  | k + 1, s =>
    match step s with
    | .next t => stepMany k t
    | .fault r => .fault r
    | .refused r => .refused r

/-- The end of a run by the reading convention of 70_reset_and_hazards R214: `PC` holds the address of a `JP` to itself. -/
def State.atSelfJump (s : State) : Bool :=
  decide (s.fetch = some (encode (.jp (s.pc.setWidth 12)))) && decide (s.pc.toNat ≤ 0xFFF)

/-! ### The invariant of reachable states -/

/-- What holds in every state reached from a `Reset` (10_state R17, R29), beside the ranges the types already say. -/
structure State.Inv (s : State) : Prop where
  /-- Memory is in its one canonical form and lists no address outside 0..4095. -/
  memCanonical : s.mem.wf s.config = true
  /-- `PC` in 0..0x10FE (R17, R29). -/
  pcBound : s.pc.toNat ≤ 0x10FE
  /-- `STACK[k]` for `k < SP` is a value CALL pushed, in 0x0002..0x1000 (R29). -/
  returnAddresses : ∀ k : Fin 16, k.val < s.sp.val → 2 ≤ (s.stack[k]).toNat ∧ (s.stack[k]).toNat ≤ 0x1000
  /-- The parameters are ones a `Reset` takes (60_exceptions R183). -/
  configLegal : s.config.wellFormed = true
  /-- A gate's interval is fixed at `Reset` from its rate (10_state R25). -/
  cpuInterval : s.cpuGate.interval = nanosPerSecond / s.config.cpuRate
  timerInterval : s.timerGate.interval = nanosPerSecond / timerRate

/-- The states of all runs: from a `Reset` with any legal parameters, any ROM, any time, any host inputs to come and any
draws, by steps. -/
inductive Reachable : State → Prop where
  | reset (c : Config) (rom : List Byte) (t0 : Nat) (inbox : List HostInput) (draws : List Byte) (n : Nat)
      (legal : c.wellFormed = true) :
      Reachable { resetState c rom t0 with inbox := inbox, draws := draws, drawIndex := n }
  | step (s t : State) (before : Reachable s) (taken : step s = .next t) : Reachable t

/-! ### Who faults when (60_exceptions R167) -/

/-- The cause an instruction raises at execution, from the table's column "condition"; `none` where it raises none. -/
def raisedBy (i : Instr) (s : State) : Option Cause :=
  match i with
  | .sys nnn => some (.unsupportedOp (BitVec.ofNat 16 nnn.toNat))
  | .call _ => if s.sp.val = 16 then some .stackOverflow else none
  | .ret => if s.sp.val = 0 then some .stackUnderflow else none
  | .drw _ _ n => if 1 ≤ n.val ∧ 4095 < s.i.toNat + n.val - 1 then some (.memBounds s.i n.val) else none
  | .ldBR _ => if 4095 < s.i.toNat + 2 then some (.memBounds s.i 3) else none
  | .ldIRR x => if 4095 < s.i.toNat + x.val then some (.memBounds s.i (x.val + 1)) else none
  | .ldRRI x => if 4095 < s.i.toNat + x.val then some (.memBounds s.i (x.val + 1)) else none
  | .skp x => if 15 < (s.getV x).toNat then some (.keyIndex (s.getV x)) else none
  | .sknp x => if 15 < (s.getV x).toNat then some (.keyIndex (s.getV x)) else none
  | .cls | .jp _ | .seRV _ _ | .sneRV _ _ | .seRR _ _ | .ldRV _ _ | .addRV _ _ | .ldRR _ _ | .or _ _ | .and _ _
  | .xor _ _ | .addRR _ _ | .subRR _ _ | .shr _ _ | .subn _ _ | .shl _ _ | .sneRR _ _ | .ldIV _ | .jpRV _ | .rnd _ _
  | .ldRD _ | .ldRK _ | .ldDR _ | .ldSR _ | .addIR _ | .ldRF _ => none

/-- The word a fetch at `PC` reads: `256 * MEM[PC] + MEM[PC + 1]` (20_memory R48). -/
def State.wordAtPc (s : State) : Word :=
  BitVec.ofNat 16 (256 * (s.readByte s.pc.toNat).toNat + (s.readByte (s.pc.toNat + 1)).toNat)

/-- The cause a `CpuStep` of a healthy state raises, in the order of 60_exceptions R169; `none` where it raises none. -/
def stepRaises (s : State) : Option Cause :=
  if 4095 < s.pc.toNat + 1 then some (.fetchBounds s.pc)
  else
    match decodeWord s.wordAtPc with
    | .error _ => some (.decodeError s.wordAtPc)
    | .ok i => raisedBy i s

/-- The instructions R168 lists as never faulting once decoded. -/
def neverFaults (i : Instr) : Bool :=
  match i with
  | .cls | .jp _ | .jpRV _ | .seRV _ _ | .sneRV _ _ | .seRR _ _ | .sneRR _ _ | .ldRV _ _ | .addRV _ _ | .ldRR _ _
  | .or _ _ | .and _ _ | .xor _ _ | .addRR _ _ | .subRR _ _ | .shr _ _ | .subn _ _ | .shl _ _ | .ldIV _ | .rnd _ _
  | .ldRD _ | .ldRK _ | .ldDR _ | .ldSR _ | .addIR _ | .ldRF _ => true
  | .drw _ _ n => decide (n.val = 0)
  | .sys _ | .ret | .call _ | .skp _ | .sknp _ | .ldBR _ | .ldIRR _ | .ldRRI _ => false

/-! ### Who writes what -/

/-- The general registers an instruction may write (10_state R11): the destination, the range V0..Vx of LD_RRI, and
VF for the six flag writers (R12). -/
def mayWriteReg (i : Instr) (r : Reg) : Bool :=
  match i with
  | .ldRV x _ | .addRV x _ | .ldRR x _ | .or x _ | .and x _ | .xor x _ | .rnd x _ | .ldRD x | .ldRK x => r == x
  | .addRR x _ | .subRR x _ | .shr x _ | .subn x _ | .shl x _ => r == x || r == 15
  | .drw _ _ _ => r == 15
  | .ldRRI x => decide (r ≤ x)
  | .sys _ | .cls | .ret | .jp _ | .call _ | .seRV _ _ | .sneRV _ _ | .seRR _ _ | .sneRR _ _ | .ldIV _ | .jpRV _
  | .skp _ | .sknp _ | .ldDR _ | .ldSR _ | .addIR _ | .ldRF _ | .ldBR _ | .ldIRR _ => false

/-- How many bytes an instruction stores from `I` up (20_memory R51). -/
def storedLength (i : Instr) : Nat :=
  match i with
  | .ldBR _ => 3
  | .ldIRR x => x.val + 1
  | .sys _ | .cls | .ret | .jp _ | .call _ | .seRV _ _ | .sneRV _ _ | .seRR _ _ | .ldRV _ _ | .addRV _ _ | .ldRR _ _
  | .or _ _ | .and _ _ | .xor _ _ | .addRR _ _ | .subRR _ _ | .shr _ _ | .subn _ _ | .shl _ _ | .sneRR _ _ | .ldIV _
  | .jpRV _ | .rnd _ _ | .drw _ _ _ | .skp _ | .sknp _ | .ldRD _ | .ldRK _ | .ldDR _ | .ldSR _ | .addIR _ | .ldRF _
  | .ldRRI _ => 0

/-- The instructions that write `I` (10_state R13). -/
def writesI : Instr → Bool
  | .ldIV _ | .addIR _ | .ldRF _ => true
  | .sys _ | .cls | .ret | .jp _ | .call _ | .seRV _ _ | .sneRV _ _ | .seRR _ _ | .ldRV _ _ | .addRV _ _ | .ldRR _ _
  | .or _ _ | .and _ _ | .xor _ _ | .addRR _ _ | .subRR _ _ | .shr _ _ | .subn _ _ | .shl _ _ | .sneRR _ _
  | .jpRV _ | .rnd _ _ | .drw _ _ _ | .skp _ | .sknp _ | .ldRD _ | .ldRK _ | .ldDR _ | .ldSR _ | .ldBR _ | .ldIRR _
  | .ldRRI _ => false

/-! ### The sprite as a set of pixels -/

/-- The sprite `bytes` drawn at (`vx`, `vy`) has a 1 on the pixel addressed by (`cx`, `cy`): row `r` at
`(vy + r) mod 32`, column offset `c` at `(vx + c) mod 64`, bit `7 - c` of the row's byte (43_display R135, R136). -/
def SpriteCovers (vx vy : Byte) (bytes : List Byte) (cx cy : Nat) : Prop :=
  ∃ r c : Nat, ∃ h : r < bytes.length, c < 8 ∧ (bytes[r]).getLsbD (7 - c) = true ∧
    (vx.toNat + c) % 64 = cx % 64 ∧ (vy.toNat + r) % 32 = cy % 32

/-! ### Schedules -/

/-- The schedules of the time-free view: every `CpuStep` is immediately preceded by an `InputBatch`
(60_exceptions R189). Polls of the gates may stand between. -/
def legalSchedule : List Event → Bool
  | [] => true
  | .inputBatch _ :: .cpuStep :: rest => legalSchedule rest
  | .timerTick :: rest => legalSchedule rest
  | .renderAck :: rest => legalSchedule rest
  | .gatePoll _ _ :: rest => legalSchedule rest
  | .inputBatch _ :: _ => false
  | .cpuStep :: _ => false
  | .reset _ _ _ :: _ => false

/-- The host inputs a schedule of the time-free view is made of: all but `Reset` (60_exceptions R189). -/
def HostInput.scheduled : HostInput → Bool
  | .cycle _ | .timerTick | .gatePoll _ _ | .renderAck => true
  | .reset _ _ _ => false

/-- The events one iteration of the host loop delivers before it renders (60_exceptions R188): what a gate that fires
brings. -/
def iterationEvents (now1 now2 : Nat) (events : List KeyEvent) (s : State) : List Event :=
  (if s.gatePollAnswer .cpu now1 then [.gatePoll .cpu now1, .inputBatch events, .cpuStep] else []) ++
  (if s.gatePollAnswer .timer now2 then [.gatePoll .timer now2, .timerTick] else [])

end Sys2Proof.Machine
end

