-- ==== Sys2Proof/Certificates/Slice0/Obligations.lean ====
section
/-! DEFINITION. The statements for the provers. Each docstring names the rules of spec/ it formalises, and the decisions
(92_eei_decisions) or log entries any clause rests on. A latched fault is a next state (log entry 1). -/

open Sys2Proof Sys2Proof.Machine

/-! ### Encoding -/

/-- 30_encoding R64, R66, R71: the decoder gives back every well-formed instruction, with every operand at every value,
from its word and from its bytes in front of any others. The bit patterns are the spec's (decision D32). -/
def Obligations.DecodeOfEncodeIsTheInstruction : Prop :=
  ∀ i : Instr, i.wellFormed = true →
    decodeWord (encode i) = .ok i ∧
    ∀ rest : List Byte, decodeBytes (bytesOfWord (encode i) ++ rest) = .ok (i, rest)

/-- 30_encoding R65, R71: a word that decodes is the word of its instruction, so no two words mean the same. -/
def Obligations.EncodeOfDecodeIsTheWord : Prop :=
  ∀ (w : Word) (i : Instr), decodeWord w = .ok i → i.wellFormed = true ∧ encode i = w

/-- 30_encoding R64 against R66: the decode procedure and the opcode map agree on every word and every row. -/
def Obligations.DecoderFollowsTheOpcodeMap : Prop :=
  ∀ (w : Word), ∀ r ∈ opcodeMap,
    (r.covers w = true ↔ ∃ i : Instr, decodeWord w = .ok i ∧ i.mnemonic = r.mnemonic)

/-- 30_encoding R65, R67: a word is an instruction or one of the listed illegal words, never both; an illegal word is
rejected with itself. Rows 0x9 rest on decision D21. -/
def Obligations.IllegalWordsAreExactlyTheListed : Prop :=
  ∀ w : Word,
    (illegalWord w = true → decodeWord w = .error (.illegal w)) ∧
    (illegalWord w = false → ∃ i : Instr, i.wellFormed = true ∧ decodeWord w = .ok i)

/-- 95_test_vectors S5 to S9 and V-DEC: words written out from the spec decode to what they stand for. -/
def Obligations.SampleWordsDecode : Prop :=
  decodeWord 0x00E0 = .ok .cls ∧ decodeWord 0x00EE = .ok .ret ∧ decodeWord 0x1228 = .ok (.jp 0x228) ∧
  decodeWord 0x6A02 = .ok (.ldRV 0xA 0x02) ∧ decodeWord 0x5123 = .error (.illegal 0x5123) ∧
  decodeWord 0x8232 = .ok (.and 2 3) ∧ decodeWord 0xD12F = .ok (.drw 1 2 15) ∧ decodeWord 0xF30A = .ok (.ldRK 3)

/-! ### The step, fetch and faults -/

/-- 40_control_flow R80, 44_input_timers R151: where no fault is latched and the word at `PC` decodes, a `CpuStep` is the
execution of the instruction; a step with nothing waiting is that execution behind the empty batch, and a step with a cycle
waiting is that execution behind the cycle's batch. The meanings take the state the `CpuStep` began in and advance `PC`
themselves (R81). The inbox, and the empty batch where nothing waits, are the model's own (log entries 7 and 8). -/
def Obligations.StepRunsTheDecodedInstruction : Prop :=
  ∀ (s : State) (i : Instr), s.fault = none → s.pc.toNat + 1 ≤ 4095 → decodeWord s.wordAtPc = .ok i →
    cpuStep s = exec i s ∧
    (s.inbox = [] → step s = exec i { s with lastKey := none }) ∧
    (∀ events rest t, s.inbox = .cycle events :: rest → inputBatch events { s with inbox := rest } = .next t →
      step s = exec i t)

/-- 20_memory R48: the fetch fails exactly when `PC + 1` is above 4095, which raises `FetchBounds(p)`; else it reads two
consecutive bytes, the one at the lower address high. -/
def Obligations.FetchReadsTwoBytesHighFirst : Prop :=
  ∀ s : State,
    (4095 < s.pc.toNat + 1 → s.fault = none → cpuStep s = .next { s with fault := some ⟨.fetchBounds s.pc, s.pc⟩ }) ∧
    (s.pc.toNat + 1 ≤ 4095 → ∃ w : Word, s.fetch = some w ∧
      w.toNat = 256 * (s.readByte s.pc.toNat).toNat + (s.readByte (s.pc.toNat + 1)).toNat)

/-- 60_exceptions R166, R174: while a fault is latched no event but `Reset` changes anything and no gate fires; `Reset`
clears the latch. The latch is the spec's decision D1. -/
def Obligations.HaltedCoreChangesOnlyByReset : Prop :=
  ∀ s : State, s.fault ≠ none →
    (∀ e : Event, (∀ c rom t0, e ≠ .reset c rom t0) → deliver e s = .next s) ∧
    (∀ (g : GateId) (now : Nat), s.gatePollAnswer g now = false) ∧
    (∀ (c : Config) (rom : List Byte) (t0 : Nat), c.wellFormed = true →
      ∃ t, deliver (.reset c rom t0) s = .next t ∧ t.fault = none)

/-- 60_exceptions R166, R170: the state after a fault is the state before the step plus the record, which holds the
address of the instruction. Decision D1. -/
def Obligations.FaultsArePrecise : Prop :=
  ∀ s t : State, s.fault = none → cpuStep s = .next t → t.fault ≠ none →
    ∃ c : Cause, t = { s with fault := some ⟨c, s.pc⟩ }

/-- 60_exceptions R167, R168, R169: a `CpuStep` of a healthy state always answers a next state; it raises the cause the
table gives, the fetch's first, the decode's second, the instruction's third, and no other. Decisions D1, D2, D20. -/
def Obligations.StepFaultsExactlyAsTabled : Prop :=
  ∀ s : State, s.fault = none →
    ∃ t, cpuStep s = .next t ∧
      (∀ c, stepRaises s = some c → t = { s with fault := some ⟨c, s.pc⟩ }) ∧
      (stepRaises s = none → t.fault = none)

/-- 60_exceptions R167, R168, at the instruction: executing any instruction in any state answers a next state; where the
table gives a cause the latch records it and nothing else changes, and where it gives none the latch is untouched. -/
def Obligations.EveryInstructionAnswersANextState : Prop :=
  ∀ (i : Instr) (s : State),
    ∃ t, exec i s = .next t ∧
      (∀ c, raisedBy i s = some c → t = { s with fault := some ⟨c, s.pc⟩ }) ∧
      (raisedBy i s = none → t.fault = s.fault)

/-- 60_exceptions R168: the listed instructions, and DRW of no rows, complete without a fault in every state. -/
def Obligations.ListedInstructionsNeverFault : Prop :=
  ∀ (i : Instr) (s : State), neverFaults i = true → ∃ t, exec i s = .next t ∧ t.fault = s.fault

/-! ### Control flow -/

/-- 40_control_flow R83: SYS always raises `UnsupportedOp` with its word, whatever `nnn`; and every word with top nibble 0
but the two of CLS and RET is SYS, so the word recorded is the word fetched. -/
def Obligations.SysAlwaysRaisesUnsupportedOp : Prop :=
  (∀ (nnn : Addr12) (s : State),
    exec (.sys nnn) s = .next { s with fault := some ⟨.unsupportedOp (BitVec.ofNat 16 nnn.toNat), s.pc⟩ }) ∧
  (∀ (w : Word) (s : State), w.toNat < 4096 → w ≠ 0x00E0 → w ≠ 0x00EE →
    ∃ i, decodeWord w = .ok i ∧ exec i s = .next { s with fault := some ⟨.unsupportedOp w, s.pc⟩ })

/-- 40_control_flow R85: CALL pushes the address of the following instruction and jumps; with 16 entries in use it raises
`StackOverflow`. Nothing else changes. Decisions D12, D33. -/
def Obligations.CallPushesTheReturnAddress : Prop :=
  ∀ (nnn : Addr12) (s : State),
    (s.sp.val = 16 → exec (.call nnn) s = .next { s with fault := some ⟨.stackOverflow, s.pc⟩ }) ∧
    (s.sp.val ≠ 16 → ∃ t, exec (.call nnn) s = .next t ∧
      t = { s with sp := t.sp, stack := t.stack, pc := t.pc } ∧
      t.sp.val = s.sp.val + 1 ∧ t.pc.toNat = nnn.toNat ∧
      ∀ k : Fin 16, t.stack[k] = if k.val = s.sp.val then s.pc + 2 else s.stack[k])

/-- 40_control_flow R84: RET pops into `PC` and leaves the entry's bits; with an empty stack it raises `StackUnderflow`.
Nothing else changes. Decision D12. -/
def Obligations.RetPopsTheReturnAddress : Prop :=
  ∀ s : State,
    (s.sp.val = 0 → exec .ret s = .next { s with fault := some ⟨.stackUnderflow, s.pc⟩ }) ∧
    (∀ k : Fin 16, s.sp.val = k.val + 1 → ∃ t, exec .ret s = .next t ∧
      t = { s with sp := t.sp, pc := s.stack[k] } ∧ t.sp.val = k.val)

/-- 40_control_flow R84, R85: a CALL followed at its target by RET comes back to the instruction after the CALL, at the
depth it left, with only the one stack entry overwritten. Decision D12. -/
def Obligations.RetUndoesCall : Prop :=
  ∀ (nnn : Addr12) (s : State), s.sp.val ≠ 16 →
    ∃ t u, exec (.call nnn) s = .next t ∧ exec .ret t = .next u ∧
      u = { s with pc := s.pc + 2, stack := u.stack } ∧
      ∀ k : Fin 16, k.val ≠ s.sp.val → u.stack[k] = s.stack[k]

/-- 40_control_flow R87: JP_RV goes to `nnn + V[0]`, not reduced and not checked; a result out of range faults at the
next fetch. Only `PC` changes. -/
def Obligations.JumpWithOffsetIsNotChecked : Prop :=
  ∀ (nnn : Addr12) (s : State),
    ∃ t, exec (.jpRV nnn) s = .next t ∧ t = { s with pc := t.pc } ∧
      t.pc.toNat = nnn.toNat + (s.getV 0).toNat ∧
      (s.fault = none → 0xFFF ≤ t.pc.toNat → cpuStep t = .next { t with fault := some ⟨.fetchBounds t.pc, t.pc⟩ })

/-- 40_control_flow R86: the word `1nnn` is JP; it sets `PC` to `nnn`, unchecked, and changes nothing else; a JP to its own
address changes no state. -/
def Obligations.JumpGoesToItsTarget : Prop :=
  ∀ (nnn : Addr12) (s : State),
    decodeWord (BitVec.ofNat 16 (0x1000 + nnn.toNat)) = .ok (.jp nnn) ∧
    (∃ t, exec (.jp nnn) s = .next t ∧ t = { s with pc := t.pc } ∧ t.pc.toNat = nnn.toNat) ∧
    (nnn.toNat = s.pc.toNat → exec (.jp nnn) s = .next s)

/-- 70_reset_and_hazards R214 (decision D26): at a JP to its own address every `CpuStep` leaves the whole state as it was,
and with nothing in the model's inbox (log entries 7 and 8) a step changes `LAST_KEY` alone, which its empty batch empties,
and any number of steps stays healthy. -/
def Obligations.SelfJumpEndsTheRun : Prop :=
  ∀ s : State, s.fault = none → s.atSelfJump = true →
    cpuStep s = .next s ∧ (s.inbox = [] → step s = .next { s with lastKey := none }) ∧
    ∀ k : Nat, s.inbox = [] → staysHealthy k s = true

/-- 40_control_flow R82, R88 to R91: a skip whose condition holds leaves `PC` = p + 4, else p + 2; nothing else changes.
The four conditions are decision D33. -/
def Obligations.RegisterSkipsTestTheirCondition : Prop :=
  ∀ (x y : Reg) (kk : Byte) (s : State),
    exec (.seRV x kk) s = .next { s with pc := if s.getV x = kk then s.pc + 4 else s.pc + 2 } ∧
    exec (.sneRV x kk) s = .next { s with pc := if s.getV x = kk then s.pc + 2 else s.pc + 4 } ∧
    exec (.seRR x y) s = .next { s with pc := if s.getV x = s.getV y then s.pc + 4 else s.pc + 2 } ∧
    exec (.sneRR x y) s = .next { s with pc := if s.getV x = s.getV y then s.pc + 2 else s.pc + 4 }

/-! ### Register load, arithmetic, logic, shift, random -/

/-- 41_alu R100: the word `6xkk` is LD_RV; it loads its byte into its register, VF like any other, and changes no other
register and nothing else but `PC`, which ends at p + 2. -/
def Obligations.LoadImmediate : Prop :=
  ∀ (x : Reg) (kk : Byte) (s : State),
    decodeWord (BitVec.ofNat 16 (0x6000 + 0x100 * x.val + kk.toNat)) = .ok (.ldRV x kk) ∧
    ∃ t, exec (.ldRV x kk) s = .next t ∧ t = { s with v := t.v, pc := s.pc + 2 } ∧
      ∀ r : Reg, t.getV r = if r = x then kk else s.getV r

/-- 41_alu R101, R102: ADD_RV adds modulo 256 and writes no flag; LD_RR copies. Nothing else changes but `PC`. Decisions
D16, D33. -/
def Obligations.AddImmediateAndCopy : Prop :=
  ∀ (x y : Reg) (kk : Byte) (s : State),
    (∃ t, exec (.addRV x kk) s = .next t ∧ t = { s with v := t.v, pc := s.pc + 2 } ∧
      ∀ r : Reg, (t.getV r).toNat =
        if r = x then ((s.getV x).toNat + kk.toNat) % 256 else (s.getV r).toNat) ∧
    (∃ t, exec (.ldRR x y) s = .next t ∧ t = { s with v := t.v, pc := s.pc + 2 } ∧
      ∀ r : Reg, t.getV r = if r = x then s.getV y else s.getV r)

/-- 41_alu R103, R104, R105: OR, AND and XOR work bit by bit and write no flag. Decisions D15, D33. -/
def Obligations.LogicIsBitwise : Prop :=
  ∀ (x y : Reg) (s : State),
    (∃ t, exec (.or x y) s = .next t ∧ t = { s with v := t.v, pc := s.pc + 2 } ∧
      ∀ (r : Reg) (k : Nat), k < 8 → (t.getV r).getLsbD k =
        if r = x then ((s.getV x).getLsbD k || (s.getV y).getLsbD k) else (s.getV r).getLsbD k) ∧
    (∃ t, exec (.and x y) s = .next t ∧ t = { s with v := t.v, pc := s.pc + 2 } ∧
      ∀ (r : Reg) (k : Nat), k < 8 → (t.getV r).getLsbD k =
        if r = x then ((s.getV x).getLsbD k && (s.getV y).getLsbD k) else (s.getV r).getLsbD k) ∧
    (∃ t, exec (.xor x y) s = .next t ∧ t = { s with v := t.v, pc := s.pc + 2 } ∧
      ∀ (r : Reg) (k : Nat), k < 8 → (t.getV r).getLsbD k =
        if r = x then ((s.getV x).getLsbD k != (s.getV y).getLsbD k) else (s.getV r).getLsbD k)

/-- 41_alu R106, R107, R112: ADD_RR puts the sum modulo 256 in `V[x]` and then the carry in VF; with `x` = 15 VF ends as
the carry (decision D13). -/
def Obligations.AddRegistersSetsCarry : Prop :=
  ∀ (x y : Reg) (s : State),
    ∃ t, exec (.addRR x y) s = .next t ∧ t = { s with v := t.v, pc := s.pc + 2 } ∧
      (t.getV 15).toNat = (if 256 ≤ (s.getV x).toNat + (s.getV y).toNat then 1 else 0) ∧
      (x ≠ 15 → (t.getV x).toNat = ((s.getV x).toNat + (s.getV y).toNat) % 256) ∧
      ∀ r : Reg, r ≠ x → r ≠ 15 → t.getV r = s.getV r

/-- 41_alu R106, R108, R110, R112: SUB_RR and SUBN subtract modulo 256 and then set VF to 1 iff there was no borrow,
equality being none; SUBN takes `V[y]` as the minuend. With `x` = 15 VF ends as the flag (decision D13). -/
def Obligations.SubtractionsSetNoBorrow : Prop :=
  ∀ (x y : Reg) (s : State),
    (∃ t, exec (.subRR x y) s = .next t ∧ t = { s with v := t.v, pc := s.pc + 2 } ∧
      (t.getV 15).toNat = (if (s.getV y).toNat ≤ (s.getV x).toNat then 1 else 0) ∧
      (x ≠ 15 → (t.getV x).toNat = ((s.getV x).toNat + 256 - (s.getV y).toNat) % 256) ∧
      ∀ r : Reg, r ≠ x → r ≠ 15 → t.getV r = s.getV r) ∧
    (∃ t, exec (.subn x y) s = .next t ∧ t = { s with v := t.v, pc := s.pc + 2 } ∧
      (t.getV 15).toNat = (if (s.getV x).toNat ≤ (s.getV y).toNat then 1 else 0) ∧
      (x ≠ 15 → (t.getV x).toNat = ((s.getV y).toNat + 256 - (s.getV x).toNat) % 256) ∧
      ∀ r : Reg, r ≠ x → r ≠ 15 → t.getV r = s.getV r)

/-- 41_alu R106, R109, R111, R112: SHR and SHL put the bit shifted out in VF and then halve or double `V[x]`, whatever
`y`; with `x` = 15 the shift applies to the flag just written. Decisions D13, D14. -/
def Obligations.ShiftsSetTheBitShiftedOut : Prop :=
  ∀ (x y : Reg) (s : State),
    (∃ t, exec (.shr x y) s = .next t ∧ t = { s with v := t.v, pc := s.pc + 2 } ∧
      (x ≠ 15 → (t.getV x).toNat = (s.getV x).toNat / 2 ∧ (t.getV 15).toNat = (s.getV x).toNat % 2) ∧
      (x = 15 → t.getV 15 = 0) ∧
      ∀ r : Reg, r ≠ x → r ≠ 15 → t.getV r = s.getV r) ∧
    (∃ t, exec (.shl x y) s = .next t ∧ t = { s with v := t.v, pc := s.pc + 2 } ∧
      (x ≠ 15 → (t.getV x).toNat = 2 * (s.getV x).toNat % 256 ∧ (t.getV 15).toNat = (s.getV x).toNat / 128) ∧
      (x = 15 → (t.getV 15).toNat = 2 * ((s.getV 15).toNat / 128)) ∧
      ∀ r : Reg, r ≠ x → r ≠ 15 → t.getV r = s.getV r)

/-- 41_alu R114: with one register as both operands, LD_RR, OR and AND leave the registers as they were, XOR, SUB_RR and
SUBN clear it, the subtractions with flag 1, and ADD_RR doubles it with its old top bit as flag. -/
def Obligations.SameRegisterAsBothOperands : Prop :=
  ∀ (x : Reg) (s : State),
    (∃ t, exec (.ldRR x x) s = .next t ∧ t.v = s.v) ∧
    (∃ t, exec (.or x x) s = .next t ∧ t.v = s.v) ∧
    (∃ t, exec (.and x x) s = .next t ∧ t.v = s.v) ∧
    (∃ t, exec (.xor x x) s = .next t ∧ t.getV x = 0) ∧
    (∃ t, exec (.subRR x x) s = .next t ∧ t.getV 15 = 1 ∧ (x ≠ 15 → t.getV x = 0)) ∧
    (∃ t, exec (.subn x x) s = .next t ∧ t.getV 15 = 1 ∧ (x ≠ 15 → t.getV x = 0)) ∧
    (∃ t, exec (.addRR x x) s = .next t ∧ (t.getV 15).toNat = (s.getV x).toNat / 128 ∧
      (x ≠ 15 → (t.getV x).toNat = 2 * (s.getV x).toNat % 256))

/-- 41_alu R113: RND stores the draw masked with `kk`; the draw is the host's where it supplied one, else the free value,
and the next RND gets a fresh one. A claim holds for every draw (decision D27, log entry 9). -/
def Obligations.RandomIsTheMaskedDraw : Prop :=
  ∀ (x : Reg) (kk : Byte) (s : State),
    ∃ t, exec (.rnd x kk) s = .next t ∧
      t = { s with v := t.v, pc := s.pc + 2, draws := s.draws.tail, drawIndex := s.drawIndex + 1 } ∧
      (∀ r : Reg, r ≠ x → t.getV r = s.getV r) ∧
      (∀ (d : Byte) (rest : List Byte), s.draws = d :: rest →
        ∀ k : Nat, (t.getV x).getLsbD k = (d.getLsbD k && kk.getLsbD k)) ∧
      (s.draws = [] → ∀ k : Nat, (t.getV x).getLsbD k = ((Config.freeDraw s.drawIndex).getLsbD k && kk.getLsbD k))

/-! ### Address register and memory -/

/-- 42_index_memory R120, R121, R123: LD_IV loads the literal, ADD_IR adds modulo 65536, LD_RF sets five times the glyph
index, the whole byte or its low nibble as the parameter says. VF and every register stay. Decisions D16, D19, D33. -/
def Obligations.AddressRegisterWrites : Prop :=
  ∀ (nnn : Addr12) (x : Reg) (s : State),
    (∃ t, exec (.ldIV nnn) s = .next t ∧ t = { s with i := t.i, pc := s.pc + 2 } ∧ t.i.toNat = nnn.toNat) ∧
    (∃ t, exec (.addIR x) s = .next t ∧ t = { s with i := t.i, pc := s.pc + 2 } ∧
      t.i.toNat = (s.i.toNat + (s.getV x).toNat) % 65536) ∧
    (∃ t, exec (.ldRF x) s = .next t ∧ t = { s with i := t.i, pc := s.pc + 2 } ∧
      (s.config.fontIndexMask = .whole → t.i.toNat = 5 * (s.getV x).toNat) ∧
      (s.config.fontIndexMask = .lowNibble → t.i.toNat = 5 * ((s.getV x).toNat % 16)))

/-- 42_index_memory R124, 20_memory R45, R47: LD_BR stores the three decimal digits of `V[x]` at I, I+1, I+2 and changes no
other byte; above 4095 it raises `MemBounds` and stores nothing. `I` and the registers stay (decision D17). The memory is
in its canonical form, which every step keeps (`StepKeepsTheInvariant`). -/
def Obligations.BcdStoresThreeDigits : Prop :=
  ∀ (x : Reg) (s : State), s.mem.wf s.config = true →
    (4095 < s.i.toNat + 2 → exec (.ldBR x) s = .next { s with fault := some ⟨.memBounds s.i 3, s.pc⟩ }) ∧
    (s.i.toNat + 2 ≤ 4095 → ∃ t, exec (.ldBR x) s = .next t ∧ t = { s with mem := t.mem, pc := s.pc + 2 } ∧
      (t.readByte (s.effectiveAddress 0)).toNat = (s.getV x).toNat / 100 ∧
      (t.readByte (s.effectiveAddress 1)).toNat = (s.getV x).toNat / 10 % 10 ∧
      (t.readByte (s.effectiveAddress 2)).toNat = (s.getV x).toNat % 10 ∧
      ∀ a : Nat, a < s.effectiveAddress 0 ∨ s.effectiveAddress 3 ≤ a → t.readByte a = s.readByte a)

/-- 42_index_memory R125, 20_memory R45, R47: LD_IRR stores V0..Vx from I up and changes no other byte; out of range it
raises `MemBounds` and stores nothing. `I` and the registers stay (decision D17). Premise as in `BcdStoresThreeDigits`. -/
def Obligations.RangeStoreWritesRegisters : Prop :=
  ∀ (x : Reg) (s : State), s.mem.wf s.config = true →
    (4095 < s.i.toNat + x.val →
      exec (.ldIRR x) s = .next { s with fault := some ⟨.memBounds s.i (x.val + 1), s.pc⟩ }) ∧
    (s.i.toNat + x.val ≤ 4095 → ∃ t, exec (.ldIRR x) s = .next t ∧ t = { s with mem := t.mem, pc := s.pc + 2 } ∧
      (∀ k : Reg, k ≤ x → t.readByte (s.effectiveAddress k.val) = s.getV k) ∧
      ∀ a : Nat, a < s.effectiveAddress 0 ∨ s.effectiveAddress (x.val + 1) ≤ a → t.readByte a = s.readByte a)

/-- 42_index_memory R126, 20_memory R45, R46: LD_RRI loads V0..Vx from I up, leaves the registers above, memory and `I`
alone (decision D17); out of range it raises `MemBounds` and loads nothing. -/
def Obligations.RangeLoadReadsRegisters : Prop :=
  ∀ (x : Reg) (s : State),
    (4095 < s.i.toNat + x.val →
      exec (.ldRRI x) s = .next { s with fault := some ⟨.memBounds s.i (x.val + 1), s.pc⟩ }) ∧
    (s.i.toNat + x.val ≤ 4095 → ∃ t, exec (.ldRRI x) s = .next t ∧ t = { s with v := t.v, pc := s.pc + 2 } ∧
      ∀ k : Reg, t.getV k = if k ≤ x then s.readByte (s.effectiveAddress k.val) else s.getV k)

/-- 42_index_memory R125, R126: storing a range and loading it back gives every register its value again. -/
def Obligations.RangeLoadUndoesRangeStore : Prop :=
  ∀ (x : Reg) (s : State), s.mem.wf s.config = true → s.i.toNat + x.val ≤ 4095 →
    ∃ t u, exec (.ldIRR x) s = .next t ∧ exec (.ldRRI x) t = .next u ∧ u.v = s.v ∧ u.mem = t.mem

/-- 20_memory R49, R54, R56: a store to the two bytes that follow the instruction is what the very next fetch reads, the
first register stored being the high byte of the word. -/
def Obligations.NextFetchSeesTheStore : Prop :=
  ∀ (x : Reg) (s : State), s.mem.wf s.config = true → 1 ≤ x.val → s.i.toNat = s.pc.toNat + 2 →
    s.i.toNat + x.val ≤ 4095 →
    ∃ t w, exec (.ldIRR x) s = .next t ∧ t.fetch = some w ∧
      w.toNat = 256 * (s.getV 0).toNat + (s.getV 1).toNat

/-! ### Display -/

/-- 43_display R140: the word 0x00E0 is CLS; it turns every pixel off and sets `DIRTY`, on a blank screen too, and changes
nothing else but `PC`, which ends at p + 2. -/
def Obligations.ClsClearsTheScreen : Prop :=
  decodeWord 0x00E0 = .ok .cls ∧
  ∀ s : State, ∃ t, exec .cls s = .next t ∧ t = { s with fb := t.fb, dirty := true, pc := s.pc + 2 } ∧
    ∀ cx cy : Nat, t.fb.pixel cx cy = false

/-- 43_display R135, R136, R137, R138 (a): the blit flips exactly the pixels the sprite covers, against the buffer as it
was before the call; the collision is 1 iff one of them was on; `DIRTY` is set and nothing else changes. -/
def Obligations.DrawSpriteIsAPixelwiseXor : Prop :=
  ∀ (s : State) (vx vy : Byte) (bytes : List Byte), bytes.length ≤ 15 →
    (s.drawSprite vx vy bytes).1 = { s with fb := (s.drawSprite vx vy bytes).1.fb, dirty := true } ∧
    (∀ cx cy : Nat, (s.drawSprite vx vy bytes).1.fb.pixel cx cy ≠ s.fb.pixel cx cy ↔ SpriteCovers vx vy bytes cx cy) ∧
    ((s.drawSprite vx vy bytes).2 = true ↔ ∃ cx cy : Nat, SpriteCovers vx vy bytes cx cy ∧ s.fb.pixel cx cy = true)

/-- 43_display R138 (b), (c), with 90_conflicts C1: drawing the same sprite twice restores the buffer, and the second draw
collides iff the sprite covers a pixel that was off before the first. -/
def Obligations.DrawTwiceRestoresTheBuffer : Prop :=
  ∀ (s : State) (vx vy : Byte) (bytes : List Byte), bytes.length ≤ 15 →
    ((s.drawSprite vx vy bytes).1.drawSprite vx vy bytes).1.fb = s.fb ∧
    (((s.drawSprite vx vy bytes).1.drawSprite vx vy bytes).2 = true ↔
      ∃ cx cy : Nat, SpriteCovers vx vy bytes cx cy ∧ s.fb.pixel cx cy = false)

/-- 43_display R141, 20_memory R45: DRW draws the `n` bytes at `I` at (V[x], V[y]) as they were before the instruction, puts
the collision in VF, sets `DIRTY`; `I`, memory and the other registers stay. Out of range, with `n` at least 1, it raises
`MemBounds`; with `n` = 0 it never does. Decisions D17, D18, D29. -/
def Obligations.DrwDrawsTheSpriteAtI : Prop :=
  ∀ (x y : Reg) (n : Nibble) (s : State),
    (1 ≤ n.val → 4095 < s.i.toNat + n.val - 1 →
      exec (.drw x y n) s = .next { s with fault := some ⟨.memBounds s.i n.val, s.pc⟩ }) ∧
    (n.val = 0 ∨ s.i.toNat + n.val - 1 ≤ 4095 →
      ∀ bytes : List Byte, bytes = (List.range n.val).map (fun k => s.readByte (s.effectiveAddress k)) →
      ∃ t, exec (.drw x y n) s = .next t ∧
        t = { s with v := t.v, fb := t.fb, dirty := true, pc := s.pc + 2 } ∧
        (∀ r : Reg, r ≠ 15 → t.getV r = s.getV r) ∧
        (∀ cx cy : Nat, t.fb.pixel cx cy ≠ s.fb.pixel cx cy ↔ SpriteCovers (s.getV x) (s.getV y) bytes cx cy) ∧
        ((∃ cx cy : Nat, SpriteCovers (s.getV x) (s.getV y) bytes cx cy ∧ s.fb.pixel cx cy = true) → t.getV 15 = 1) ∧
        ((∀ cx cy : Nat, SpriteCovers (s.getV x) (s.getV y) bytes cx cy → s.fb.pixel cx cy = false) → t.getV 15 = 0))

/-! ### Keys and timers -/

/-- 44_input_timers R152, R153: SKP skips iff the key `V[x]` names is down, SKNP iff it is up; a value above 15 raises
`KeyIndex`. Only `PC` changes. Decisions D20, D33. -/
def Obligations.KeySkipsTestTheHeldKey : Prop :=
  ∀ (x : Reg) (s : State),
    (∀ k : Nibble, (s.getV x).toNat = k.val →
      exec (.skp x) s = .next { s with pc := if s.keys[k] then s.pc + 4 else s.pc + 2 } ∧
      exec (.sknp x) s = .next { s with pc := if s.keys[k] then s.pc + 2 else s.pc + 4 }) ∧
    (15 < (s.getV x).toNat →
      exec (.skp x) s = .next { s with fault := some ⟨.keyIndex (s.getV x), s.pc⟩ } ∧
      exec (.sknp x) s = .next { s with fault := some ⟨.keyIndex (s.getV x), s.pc⟩ })

/-- 44_input_timers R154: with no press in the batch LD_RK changes no state at all and so runs again; else it stores the
key of the last press. Decision D24 for the storing branch. -/
def Obligations.KeyWaitRetriesOrStores : Prop :=
  ∀ (x : Reg) (s : State),
    (s.lastKey = none → exec (.ldRK x) s = .next s) ∧
    (∀ k : Nibble, s.lastKey = some k → ∃ t, exec (.ldRK x) s = .next t ∧
      t = { s with v := t.v, pc := s.pc + 2 } ∧ (t.getV x).toNat = k.val ∧ ∀ r : Reg, r ≠ x → t.getV r = s.getV r)

/-- 44_input_timers R151, R154, 70_reset_and_hazards R213: after a batch with no press in it LD_RK waits, whatever keys are
held and whatever was pressed before. Decision D24. -/
def Obligations.KeyWaitNeedsAPressInTheLatestBatch : Prop :=
  ∀ (x : Reg) (s : State) (events : List KeyEvent), s.fault = none →
    (∀ e ∈ events, e.key < 16 ∧ e.kind = .release) →
    ∃ t, deliver (.inputBatch events) s = .next t ∧ t.lastKey = none ∧ exec (.ldRK x) t = .next t

/-- 44_input_timers R155, R156, R157: LD_RD reads `DT`; LD_DR and LD_SR write `DT` and `ST`; after LD_SR the tone is on iff
`V[x]` is not 0 (60_exceptions R192). Nothing else changes but `PC`. Decision D33. -/
def Obligations.TimerInstructionsMoveTimers : Prop :=
  ∀ (x : Reg) (s : State),
    (∃ t, exec (.ldRD x) s = .next t ∧ t = { s with v := t.v, pc := s.pc + 2 } ∧
      ∀ r : Reg, t.getV r = if r = x then s.dt else s.getV r) ∧
    (∃ t, exec (.ldDR x) s = .next t ∧ t = { s with dt := s.getV x, pc := s.pc + 2 }) ∧
    (∃ t, exec (.ldSR x) s = .next t ∧ t = { s with st := s.getV x, pc := s.pc + 2 } ∧
      (t.tone = true ↔ s.getV x ≠ 0))

/-! ### The other events -/

/-- 44_input_timers R151: after a batch each key is as its last event says, or as it was, and `LAST_KEY` is the key of the
last press, or none; a key index above 15 is refused. Only the latch changes. Decision D24. -/
def Obligations.InputBatchUpdatesTheLatch : Prop :=
  ∀ (s : State) (events : List KeyEvent), s.fault = none →
    ((∀ e ∈ events, e.key < 16) → ∃ t, deliver (.inputBatch events) s = .next t ∧
      t = { s with keys := t.keys, lastKey := t.lastKey } ∧
      (∀ k : Nibble, t.isPressed k =
        match (events.filter fun e => e.key == k.val).getLast? with
        | none => s.isPressed k
        | some e => e.kind == .press) ∧
      t.lastKey.map Fin.val = ((events.filter fun e => e.kind == .press).getLast?).map KeyEvent.key) ∧
    ((∃ e ∈ events, 16 ≤ e.key) → ∃ k, 16 ≤ k ∧ deliver (.inputBatch events) s = .refused (.keyEventOutOfRange k))

/-- 60_exceptions R180, 43_display R139: `TimerTick` lowers each timer by one and stops at zero; `RenderAck` clears `DIRTY`.
Nothing else changes. Decision D11. -/
def Obligations.TickAndAckChangeOnlyTheirOwn : Prop :=
  ∀ s : State, s.fault = none →
    (∃ t, deliver .timerTick s = .next t ∧ t = { s with dt := t.dt, st := t.st } ∧
      t.dt.toNat = s.dt.toNat - 1 ∧ t.st.toNat = s.st.toNat - 1) ∧
    deliver .renderAck s = .next { s with dirty := false }

/-- 60_exceptions R181: `DT` never rises but by LD_DR (or by a `Reset`). -/
def Obligations.DelayTimerRisesOnlyByLoad : Prop :=
  ∀ (s t : State) (e : Event), deliver e s = .next t → (∀ c rom t0, e ≠ .reset c rom t0) →
    s.dt.toNat < t.dt.toNat → e = .cpuStep ∧ ∃ x : Reg, decodeWord s.wordAtPc = .ok (.ldDR x)

/-- 60_exceptions R184, R185: a poll fires iff no fault is latched, the clock has not gone back and one interval has passed;
a gate that fires takes `now` as its last fire and does not fire again before `now + interval`; a poll that does not fire
changes nothing. Decisions D9, D25. -/
def Obligations.GateFiresOncePerInterval : Prop :=
  ∀ (s : State) (g : GateId) (now : Nat),
    (s.gatePollAnswer g now = true ↔ s.fault = none ∧ (s.gate g).lastFire + (s.gate g).interval ≤ now) ∧
    (s.gatePollAnswer g now = false → deliver (.gatePoll g now) s = .next s) ∧
    (s.gatePollAnswer g now = true → ∃ t, deliver (.gatePoll g now) s = .next t ∧
      t = { s with cpuGate := t.cpuGate, timerGate := t.timerGate } ∧
      t.gate g = ⟨(s.gate g).interval, now⟩ ∧ (∀ h : GateId, h ≠ g → t.gate h = s.gate h) ∧
      ∀ later : Nat, later < now + (s.gate g).interval → t.gatePollAnswer g later = false)

/-- 60_exceptions R186, R187: the delay is the time left until the next fire, clamped to zero; it is zero exactly when a poll
would fire, and longer than the interval when the clock is behind the last fire. The smallest delay of some gates is the
delay of one of them and above none; for the two gates of the machine it is the smaller of their delays. -/
def Obligations.DelaysAreTheTimeLeft : Prop :=
  ∀ (s : State) (now : Nat),
    (∀ g : Gate, ((g.delayUntil now : Nat) : Int) = max 0 ((g.lastFire : Int) + g.interval - now) ∧
      (now < g.lastFire → g.interval < g.delayUntil now)) ∧
    (s.fault = none → ∀ g : GateId, (s.gate g).delayUntil now = 0 ↔ s.gatePollAnswer g now = true) ∧
    (∀ gates : List Gate, gates ≠ [] → ∃ d, smallestDelay gates now = some d ∧
      (∃ g ∈ gates, d = g.delayUntil now) ∧ ∀ g ∈ gates, d ≤ g.delayUntil now) ∧
    smallestDelay [s.cpuGate, s.timerGate] now = some (min (s.cpuGate.delayUntil now) (s.timerGate.delayUntil now))

/-- 60_exceptions R188, R189, R191, R192: one iteration of the host loop delivers, in a legal order, what the gates that
fire bring and then acknowledges the rendering; it shows the grid iff `DIRTY` was set, the tone iff `ST` is above 0, and
the smaller of the two delays; `DIRTY` ends clear unless a fault is latched. Where neither gate fires and nothing is dirty,
it changes nothing. Decision D10 for the order. -/
def Obligations.HostIterationDeliversTheEvents : Prop :=
  ∀ (now1 now2 now3 : Nat) (events : List KeyEvent) (s : State),
    legalSchedule (iterationEvents now1 now2 events s) = true ∧
    (∀ w, deliverAll (iterationEvents now1 now2 events s) s = .next w →
      ∃ t report, hostIteration now1 now2 now3 events s = .next (t, report) ∧ deliver .renderAck w = .next t ∧
        (t.fault = none → t.dirty = false) ∧ report.rendered = (if w.dirty then some w.fb else none) ∧
        (report.tone = true ↔ 0 < w.st.toNat) ∧
        report.sleep = min (w.cpuGate.delayUntil now3) (w.timerGate.delayUntil now3)) ∧
    (s.gatePollAnswer .cpu now1 = false → s.gatePollAnswer .timer now2 = false → s.dirty = false →
      ∃ report, hostIteration now1 now2 now3 events s = .next (s, report) ∧ report.rendered = none)

/-- 70_reset_and_hazards R200, 20_memory R58, 60_exceptions R183: what `Reset` leaves. The entry point, the glyphs' place and
the truncated program are the document's; the other values are the spec's own decisions (10_state R30: D1, D3 to D8). The
host's inputs stay (log entry 7). -/
def Obligations.ResetSetsEverything : Prop :=
  ∀ (c : Config) (rom : List Byte) (t0 : Nat) (s : State),
    (c.wellFormed = false → deliver (.reset c rom t0) s = .refused (.illegalRate c.cpuRate)) ∧
    (c.wellFormed = true → ∃ t, deliver (.reset c rom t0) s = .next t ∧
      (∀ r : Reg, t.getV r = 0) ∧ t.i = 0 ∧ t.pc = 0x200 ∧ t.sp = 0 ∧ (∀ k : Fin 16, t.stack[k] = 0) ∧
      t.dt = 0 ∧ t.st = 0 ∧ (∀ cx cy : Nat, t.fb.pixel cx cy = false) ∧ t.dirty = false ∧
      (∀ k : Nibble, t.isPressed k = false) ∧ t.lastKey = none ∧ t.fault = none ∧ t.config = c ∧
      t.cpuGate = ⟨1000000000 / c.cpuRate, t0⟩ ∧ t.timerGate = ⟨16666666, t0⟩ ∧
      (∀ a : Fin 80, t.readByte a.val = c.font[a]) ∧
      (∀ k : Nat, ∀ h : k < rom.length, k < 3584 → t.readByte (0x200 + k) = rom[k]) ∧
      (∀ a : Nat, 80 ≤ a → a < 0x200 ∨ 0x200 + min rom.length 3584 ≤ a → t.readByte a = 0) ∧
      t.inbox = s.inbox ∧ t.draws = s.draws ∧ t.drawIndex = s.drawIndex)

/-! ### Frames of all instructions -/

/-- 10_state R11, R12: an instruction changes no general register but its destination, the range of LD_RRI, and VF for the
six flag writers. -/
def Obligations.OnlyListedRegistersChange : Prop :=
  ∀ (i : Instr) (s t : State), exec i s = .next t → ∀ r : Reg, mayWriteReg i r = false → t.getV r = s.getV r

/-- 20_memory R51: an instruction changes no byte of memory but the ones LD_BR and LD_IRR store from the effective address
of byte 0 up; every other instruction changes none. -/
def Obligations.OnlyStoresChangeMemory : Prop :=
  ∀ (i : Instr) (s t : State), exec i s = .next t →
    ∀ a : Nat, a < s.effectiveAddress 0 ∨ s.effectiveAddress (storedLength i) ≤ a → t.readByte a = s.readByte a

/-- Who may change what beside the general registers and memory. `I`: 10_state R13 (decision D17). The stack and `SP`: R18.
The timers: R19. The framebuffer and `DIRTY`: R21, R22. `FAULT`: R24 and the table of 60_exceptions R167 (decision D1). No
instruction changes the key latch (R23), the gates (R25) or the parameters, which only `Reset` sets (00_scope R4,
70_reset_and_hazards R200). OF THE MODEL'S OWN FIELDS, which are no state of the spec (00_scope R9): the draws and their
count change only by RND (41_alu R113; their form is log entry 9, DESIGN CHOICE) and the inbox by no instruction (log entry
7, DESIGN CHOICE). -/
def Obligations.OnlyListedSpecialStateChanges : Prop :=
  ∀ (i : Instr) (s t : State), exec i s = .next t →
    (writesI i = false → t.i = s.i) ∧
    ((∀ nnn, i ≠ .call nnn) → t.stack = s.stack) ∧
    ((∀ nnn, i ≠ .call nnn) → i ≠ .ret → t.sp = s.sp) ∧
    ((∀ x, i ≠ .ldDR x) → t.dt = s.dt) ∧
    ((∀ x, i ≠ .ldSR x) → t.st = s.st) ∧
    (i ≠ .cls → (∀ x y n, i ≠ .drw x y n) → t.fb = s.fb ∧ t.dirty = s.dirty) ∧
    ((∀ x kk, i ≠ .rnd x kk) → t.draws = s.draws ∧ t.drawIndex = s.drawIndex) ∧
    (raisedBy i s = none → t.fault = s.fault) ∧
    t.keys = s.keys ∧ t.lastKey = s.lastKey ∧ t.cpuGate = s.cpuGate ∧ t.timerGate = s.timerGate ∧
    t.config = s.config ∧ t.inbox = s.inbox

/-! ### The invariant -/

/-- 10_state R17, R29: every step, and every single event, keeps the invariant, from every state that has it: memory stays
in canonical form, `PC` stays at most 0x10FE, the stack holds only addresses CALL pushed, the gates keep the intervals of
their rates. -/
def Obligations.StepKeepsTheInvariant : Prop :=
  ∀ s t : State, s.Inv →
    (step s = .next t → t.Inv) ∧ (∀ e : Event, deliver e s = .next t → t.Inv)

/-- 10_state R30, 70_reset_and_hazards R200: the reset state has the invariant. Its parameters are log entry 3's. -/
def Obligations.ResetStateHasTheInvariant : Prop := State.reset.Inv

/-- 10_state R17, R29: every state of every run has the invariant, from a `Reset` with any legal parameters, any ROM and
any events and draws to come. -/
def Obligations.ReachableStatesHaveTheInvariant : Prop :=
  ∀ s : State, Reachable s → s.Inv

/-! ### Schedules and the key wait -/

/-- 44_input_timers R151, 60_exceptions R189, 00_scope R7, R8. What a step delivers: with nothing waiting an empty batch and
a `CpuStep`; with an input waiting, whichever it is, the events of that input on the state without it, which are one
`InputBatch` and its `CpuStep` for a cycle and the one event of its name for every other input. The event lists that inputs
other than `Reset` stand for are exactly the legal schedules, those in which every `CpuStep` is immediately preceded by its
batch; and as many steps as inputs wait, from any state, are the delivery of the whole schedule. So no `CpuStep` of a run
is without its batch, nothing waiting is dropped, and no legal schedule is missing. The inbox, and the empty batch where
nothing waits, are the model's own (log entries 7 and 8). -/
def Obligations.EveryCpuStepFollowsItsBatch : Prop :=
  (∀ s : State, s.inbox = [] → step s = deliverAll [.inputBatch [], .cpuStep] s) ∧
  (∀ (s : State) (u : HostInput) (rest : List HostInput), s.inbox = u :: rest →
    step s = deliverAll u.events { s with inbox := rest }) ∧
  (∀ (events : List KeyEvent) (g : GateId) (now : Nat) (c : Config) (rom : List Byte) (t0 : Nat),
    (HostInput.cycle events).events = [.inputBatch events, .cpuStep] ∧
    HostInput.timerTick.events = [.timerTick] ∧ (HostInput.gatePoll g now).events = [.gatePoll g now] ∧
    HostInput.renderAck.events = [.renderAck] ∧ (HostInput.reset c rom t0).events = [.reset c rom t0]) ∧
  (∀ schedule : List Event, legalSchedule schedule = true ↔
    ∃ inputs : List HostInput, (∀ u ∈ inputs, u.scheduled = true) ∧ inputs.flatMap HostInput.events = schedule) ∧
  (∀ (inputs : List HostInput) (s : State),
    stepMany inputs.length { s with inbox := inputs } =
      deliverAll (inputs.flatMap HostInput.events) { s with inbox := [] })

/-- 70_reset_and_hazards R213: a key already held does not end the wait; a press does, with the key still down; and of two
LD_RK in a row the second one waits until another press, whatever releases come: the same press never serves twice.
Decision D24 for the storing branch; the inbox is the model's own (log entries 7 and 8). -/
def Obligations.OnePressServesOneKeyWait : Prop :=
  ∀ (x y : Reg) (k : Nibble) (s : State) (rest : List HostInput), s.fault = none → s.pc.toNat + 3 ≤ 4095 →
    decodeWord s.wordAtPc = .ok (.ldRK x) → decodeWord (s.setPc (s.pc + 2)).wordAtPc = .ok (.ldRK y) →
    (s.inbox = [] → step s = .next { s with lastKey := none }) ∧
    (s.inbox = .cycle [⟨.press, k.val⟩] :: rest →
      (rest = [] ∨ ∃ events more, rest = .cycle events :: more ∧ ∀ e ∈ events, e.key < 16 ∧ e.kind = .release) →
      ∃ t u, step s = .next t ∧ (t.getV x).toNat = k.val ∧ t.pc = s.pc + 2 ∧ t.isPressed k = true ∧
        step t = .next u ∧ u.pc = t.pc ∧ u.v = t.v ∧ u.lastKey = none)
end

