-- ==== Sys2Proof/Laws/Decode.lean ====
section
/-! SUPPORT. The fields of a packed word and the word of its fields (30_encoding R61, R62), and the two bytes of a word
(20_memory R48, R49). -/

namespace Sys2Proof

/-! ### Packed words as numbers -/

/-- A word as a number, from its four nibbles. -/
theorem toNat_packXYN (op x y n : Nibble) : (packXYN op x y n).toNat = 4096 * op + 256 * x + 16 * y + n := by
  simp only [packXYN, BitVec.toNat_append, BitVec.toNat_ofFin]
  have := op.isLt; have := x.isLt; have := y.isLt; have := n.isLt
  rw [← Nat.shiftLeft_add_eq_or_of_lt (by omega), ← Nat.shiftLeft_add_eq_or_of_lt (by omega),
    ← Nat.shiftLeft_add_eq_or_of_lt (by omega)]
  simp only [Nat.shiftLeft_eq]
  omega

theorem toNat_packXK (op x : Nibble) (kk : Byte) : (packXK op x kk).toNat = 4096 * op + 256 * x + kk.toNat := by
  simp only [packXK, BitVec.toNat_append, BitVec.toNat_ofFin]
  have := op.isLt; have := x.isLt; have := kk.isLt
  rw [← Nat.shiftLeft_add_eq_or_of_lt (by omega), ← Nat.shiftLeft_add_eq_or_of_lt (by omega)]
  simp only [Nat.shiftLeft_eq]
  omega

theorem toNat_packA (op : Nibble) (nnn : Addr12) : (packA op nnn).toNat = 4096 * op + nnn.toNat := by
  simp only [packA, BitVec.toNat_append, BitVec.toNat_ofFin]
  have := op.isLt; have := nnn.isLt
  rw [← Nat.shiftLeft_add_eq_or_of_lt (by omega)]
  simp only [Nat.shiftLeft_eq]
  omega

/-! ### Fields as numbers -/

theorem fieldOp_val (w : Word) : (fieldOp w).val = w.toNat / 4096 := by
  have := w.isLt
  simp [fieldOp, Nat.shiftRight_eq_div_pow]
  omega

theorem fieldX_val (w : Word) : (fieldX w).val = w.toNat / 256 % 16 := by
  simp [fieldX, Nat.shiftRight_eq_div_pow]

theorem fieldY_val (w : Word) : (fieldY w).val = w.toNat / 16 % 16 := by
  simp [fieldY, Nat.shiftRight_eq_div_pow]

theorem fieldN_val (w : Word) : (fieldN w).val = w.toNat % 16 := by simp [fieldN]

theorem fieldKK_toNat (w : Word) : (fieldKK w).toNat = w.toNat % 256 := by simp [fieldKK]

theorem fieldNNN_toNat (w : Word) : (fieldNNN w).toNat = w.toNat % 4096 := by simp [fieldNNN]

@[simp] theorem fieldOp_packA (op : Nibble) (nnn : Addr12) : fieldOp (packA op nnn) = op := by
  have := nnn.isLt
  ext; rw [fieldOp_val, toNat_packA]; omega

@[simp] theorem fieldNNN_packA (op : Nibble) (nnn : Addr12) : fieldNNN (packA op nnn) = nnn := by
  have := nnn.isLt
  apply BitVec.eq_of_toNat_eq
  rw [fieldNNN_toNat, toNat_packA]; omega

@[simp] theorem fieldOp_packXYN (op x y n : Nibble) : fieldOp (packXYN op x y n) = op := by
  ext; rw [fieldOp_val, toNat_packXYN]; omega

@[simp] theorem fieldX_packXYN (op x y n : Nibble) : fieldX (packXYN op x y n) = x := by
  ext; rw [fieldX_val, toNat_packXYN]; omega

@[simp] theorem fieldY_packXYN (op x y n : Nibble) : fieldY (packXYN op x y n) = y := by
  ext; rw [fieldY_val, toNat_packXYN]; omega

@[simp] theorem fieldN_packXYN (op x y n : Nibble) : fieldN (packXYN op x y n) = n := by
  ext; rw [fieldN_val, toNat_packXYN]; omega

@[simp] theorem fieldOp_packXK (op x : Nibble) (kk : Byte) : fieldOp (packXK op x kk) = op := by
  have := kk.isLt
  ext; rw [fieldOp_val, toNat_packXK]; omega

@[simp] theorem fieldX_packXK (op x : Nibble) (kk : Byte) : fieldX (packXK op x kk) = x := by
  have := kk.isLt
  ext; rw [fieldX_val, toNat_packXK]; omega

@[simp] theorem fieldKK_packXK (op x : Nibble) (kk : Byte) : fieldKK (packXK op x kk) = kk := by
  have := kk.isLt
  apply BitVec.eq_of_toNat_eq
  rw [fieldKK_toNat, toNat_packXK]; omega

/-! ### The word of its fields -/

theorem packA_fields (w : Word) : packA (fieldOp w) (fieldNNN w) = w := by
  apply BitVec.eq_of_toNat_eq
  rw [toNat_packA, fieldOp_val, fieldNNN_toNat]; omega

theorem packXK_fields (w : Word) : packXK (fieldOp w) (fieldX w) (fieldKK w) = w := by
  apply BitVec.eq_of_toNat_eq
  have := w.isLt
  rw [toNat_packXK, fieldOp_val, fieldX_val, fieldKK_toNat]; omega

theorem packXYN_fields (w : Word) : packXYN (fieldOp w) (fieldX w) (fieldY w) (fieldN w) = w := by
  apply BitVec.eq_of_toNat_eq
  have := w.isLt
  rw [toNat_packXYN, fieldOp_val, fieldX_val, fieldY_val, fieldN_val]; omega

/-! ### Masked words (30_encoding R66) -/

/-- The mask 0xF000 keeps the top nibble. -/
theorem mask_top (w : Word) : w &&& 0xF000#16 = packXYN (fieldOp w) 0 0 0 := by
  change w &&& _ = ((w.extractLsb' 12 4 ++ (0 : BitVec 4) ++ (0 : BitVec 4) ++ (0 : BitVec 4) : BitVec 16))
  apply BitVec.eq_of_getLsbD_eq
  intro i hi
  simp only [BitVec.getLsbD_and, BitVec.getLsbD_append, BitVec.getLsbD_extractLsb']
  interval_cases i <;> simp

/-- The mask 0xF00F keeps the top and the low nibble. -/
theorem mask_lowNibble (w : Word) : w &&& 0xF00F#16 = packXYN (fieldOp w) 0 0 (fieldN w) := by
  change w &&& _ = ((w.extractLsb' 12 4 ++ (0 : BitVec 4) ++ (0 : BitVec 4) ++ w.extractLsb' 0 4 : BitVec 16))
  apply BitVec.eq_of_getLsbD_eq
  intro i hi
  simp only [BitVec.getLsbD_and, BitVec.getLsbD_append, BitVec.getLsbD_extractLsb']
  interval_cases i <;> simp

/-- The mask 0xF0FF keeps the top nibble and the low byte. -/
theorem mask_lowByte (w : Word) : w &&& 0xF0FF#16 = packXK (fieldOp w) 0 (fieldKK w) := by
  change w &&& _ = ((w.extractLsb' 12 4 ++ (0 : BitVec 4) ++ w.extractLsb' 0 8 : BitVec 16))
  apply BitVec.eq_of_getLsbD_eq
  intro i hi
  simp only [BitVec.getLsbD_and, BitVec.getLsbD_append, BitVec.getLsbD_extractLsb']
  interval_cases i <;> simp

/-! ### Words and bytes -/

/-- Big-endian: `256 * hi + lo` (R48). -/
theorem toNat_wordOfBytes (hi lo : Byte) : (wordOfBytes hi lo).toNat = 256 * hi.toNat + lo.toNat := by
  simp only [wordOfBytes, BitVec.toNat_append]
  have := lo.isLt
  rw [← Nat.shiftLeft_add_eq_or_of_lt (by omega)]
  simp only [Nat.shiftLeft_eq]
  omega

/-- The two bytes of a word, put together again, are the word. -/
theorem wordOfBytes_bytesOfWord (w : Word) : wordOfBytes (w.extractLsb' 8 8) (w.extractLsb' 0 8) = w := by
  apply BitVec.eq_of_toNat_eq
  have := w.isLt
  rw [toNat_wordOfBytes]
  simp [Nat.shiftRight_eq_div_pow]
  omega

@[simp] theorem length_bytesOfWord (w : Word) : (bytesOfWord w).length = 2 := rfl

/-- Decoding the bytes of a word is decoding the word. -/
theorem decodeBytes_bytesOfWord (w : Word) (rest : List Byte) :
    decodeBytes (bytesOfWord w ++ rest) =
      match decodeWord w with
      | .ok i => .ok (i, rest)
      | .error e => .error e := by
  show decodeBytes (_ :: _ :: rest) = _
  cases h : decodeWord w <;> simp only [decodeBytes, wordOfBytes_bytesOfWord, h]

/-- The opcode-table decoder decodes the word itself when all 16 bits are given. -/
theorem decodeTableWord_eq (w : Word) : decodeTableWord 16 w.toNat = (decodeWord w).toOption := by
  have hw : tableWord 16 w.toNat = w := by
    apply BitVec.eq_of_toNat_eq
    simpa [tableWord] using w.isLt
  have := decodeBytes_bytesOfWord w []
  rw [List.append_nil] at this
  rw [decodeTableWord, hw, this]
  cases decodeWord w <;> rfl

end Sys2Proof
end

