-- ==== Sys2Proof/Laws/Memory.lean ====
section
/-! SUPPORT. The laws of memory (20_memory R45 to R48, R54): a read after a write, the canonical form and that every
operation keeps it, and one lemma per access primitive that says all it can do. -/

namespace Sys2Proof.Machine

variable {c : Config}

/-! ### The canonical form, taken apart -/

theorem Memory.wf_nil : Memory.wf c [] = true := by simp [Memory.wf]

/-- The canonical form of a list with a first entry. -/
theorem Memory.wf_cons {b : Nat} {w : Byte} {m : Memory} :
    Memory.wf c ((b, w) :: m) = true ↔
      (∀ p ∈ m, b < p.1) ∧ b < memSize ∧ w ≠ background c b ∧ Memory.wf c m = true := by
  simp only [Memory.wf, List.pairwise_cons, List.all_cons, Bool.and_eq_true, decide_eq_true_eq, bne_iff_ne]
  constructor
  · rintro ⟨⟨h1, h2⟩, ⟨h3, h4⟩, h5⟩
    exact ⟨h1, h3, h4, h2, h5⟩
  · rintro ⟨h1, h3, h4, h2, h5⟩
    exact ⟨⟨h1, h2⟩, ⟨h3, h4⟩, h5⟩

/-! ### Reading -/

@[simp] theorem Memory.read_nil (a : Nat) : Memory.read c [] a = background c a := rfl

theorem Memory.read_cons (b : Nat) (w : Byte) (m : Memory) (a : Nat) :
    Memory.read c ((b, w) :: m) a = if b = a then w else Memory.read c m a := rfl

/-- An address below every entry reads as its reset contents. -/
theorem Memory.read_below {m : Memory} {a : Nat} (h : ∀ p ∈ m, a < p.1) : Memory.read c m a = background c a := by
  induction m with
  | nil => rfl
  | cons p m ih =>
    obtain ⟨b, w⟩ := p
    have hb : a < b := h (b, w) (by simp)
    rw [Memory.read_cons, if_neg (by omega)]
    exact ih fun q hq => h q (by simp [hq])

/-! ### Writing one byte -/

/-- Every entry after a write was there before or is the byte written. -/
theorem Memory.mem_write {m : Memory} {a : Nat} {v : Byte} {p : Nat × Byte} (h : p ∈ Memory.write c m a v) :
    p ∈ m ∨ p = (a, v) := by
  induction m with
  | nil => simp only [Memory.write] at h; split at h <;> simp_all
  | cons q m ih =>
    obtain ⟨b, w⟩ := q
    simp only [Memory.write] at h
    split at h
    · split at h
      · exact .inl h
      · simp only [List.mem_cons] at h ⊢; tauto
    · split at h
      · split at h <;> simp only [List.mem_cons] at h ⊢ <;> tauto
      · simp only [List.mem_cons] at h ⊢
        rcases h with h | h
        · exact .inl (.inl h)
        · exact (ih h).imp .inr id

/-- A write leaves every other address alone (R47), whatever the memory. -/
theorem Memory.read_write_other (m : Memory) {a b : Nat} (v : Byte) (h : b ≠ a) :
    Memory.read c (Memory.write c m a v) b = Memory.read c m b := by
  induction m with
  | nil =>
    simp only [Memory.write]
    split
    · rfl
    · rw [Memory.read_cons, if_neg (Ne.symm h)]
  | cons q m ih =>
    obtain ⟨d, w⟩ := q
    simp only [Memory.write]
    split
    · split
      · rfl
      · rw [Memory.read_cons, if_neg (Ne.symm h)]
    · split
      · next hd =>
        subst hd
        split <;> simp [Memory.read_cons, Ne.symm h]
      · simp only [Memory.read_cons, ih]

/-- A read after a write to the same place gives the byte written (R52, R54). -/
theorem Memory.read_write_same {m : Memory} (h : Memory.wf c m = true) (a : Nat) (v : Byte) :
    Memory.read c (Memory.write c m a v) a = v := by
  induction m with
  | nil => simp only [Memory.write]; split <;> simp_all [Memory.read_cons]
  | cons q m ih =>
    obtain ⟨b, w⟩ := q
    obtain ⟨hlt, -, -, hm⟩ := Memory.wf_cons.1 h
    simp only [Memory.write]
    split
    · next hab =>
      split
      · next hv =>
        rw [hv, Memory.read_below]
        intro p hp
        rcases List.mem_cons.1 hp with rfl | hp
        · exact hab
        · exact lt_trans hab (hlt p hp)
      · simp [Memory.read_cons]
    · split
      · next hab =>
        subst hab
        split
        · next hv => rw [hv, Memory.read_below hlt]
        · simp [Memory.read_cons]
      · next hab =>
        rw [Memory.read_cons, if_neg (fun e => hab e.symm)]
        exact ih hm

/-- A write inside the memory keeps the canonical form. -/
theorem Memory.write_wf {m : Memory} (h : Memory.wf c m = true) {a : Nat} (ha : a < memSize) (v : Byte) :
    Memory.wf c (Memory.write c m a v) = true := by
  induction m with
  | nil =>
    simp only [Memory.write]
    split
    · exact Memory.wf_nil
    · next hv => exact Memory.wf_cons.2 ⟨by simp, ha, hv, Memory.wf_nil⟩
  | cons q m ih =>
    obtain ⟨b, w⟩ := q
    have hq := Memory.wf_cons.1 h
    simp only [Memory.write]
    split
    · next hab =>
      split
      · exact h
      · next hv =>
        refine Memory.wf_cons.2 ⟨?_, ha, hv, h⟩
        intro p hp
        rcases List.mem_cons.1 hp with rfl | hp
        · exact hab
        · exact lt_trans hab (hq.1 p hp)
    · split
      · next hab =>
        subst hab
        split
        · exact hq.2.2.2
        · next hv => exact Memory.wf_cons.2 ⟨hq.1, ha, hv, hq.2.2.2⟩
      · next h1 h2 =>
        refine Memory.wf_cons.2 ⟨?_, hq.2.1, hq.2.2.1, ih hq.2.2.2⟩
        intro p hp
        rcases Memory.mem_write hp with hp | rfl
        · exact hq.1 p hp
        · show b < a
          omega

/-- Canonical memories that read alike are the same data. -/
theorem Memory.eq_of_read_eq {m n : Memory} (hm : Memory.wf c m = true) (hn : Memory.wf c n = true)
    (h : ∀ a, Memory.read c m a = Memory.read c n a) : m = n := by
  induction m generalizing n with
  | nil =>
    cases n with
    | nil => rfl
    | cons q n =>
      obtain ⟨b, w⟩ := q
      have := h b
      simp only [Memory.read_nil, Memory.read_cons, if_true] at this
      exact absurd this.symm (Memory.wf_cons.1 hn).2.2.1
  | cons p m ih =>
    obtain ⟨a, v⟩ := p
    obtain ⟨hlt, -, hv, hm'⟩ := Memory.wf_cons.1 hm
    cases n with
    | nil =>
      have := h a
      simp only [Memory.read_nil, Memory.read_cons, if_true] at this
      exact absurd this hv
    | cons q n =>
      obtain ⟨b, w⟩ := q
      obtain ⟨hlt', -, hw, hn'⟩ := Memory.wf_cons.1 hn
      have hab : a = b := by
        rcases lt_trichotomy a b with hab | hab | hab
        · have := h a
          rw [Memory.read_cons, if_pos rfl, Memory.read_below] at this
          · exact absurd this hv
          · intro p hp
            rcases List.mem_cons.1 hp with rfl | hp
            · exact hab
            · exact lt_trans hab (hlt' p hp)
        · exact hab
        · have := h b
          rw [Memory.read_cons (c := c) b w n b, if_pos rfl, Memory.read_below] at this
          · exact absurd this.symm hw
          · intro p hp
            rcases List.mem_cons.1 hp with rfl | hp
            · exact hab
            · exact lt_trans hab (hlt p hp)
      subst hab
      have hvw : v = w := by simpa [Memory.read_cons] using h a
      subst hvw
      congr 1
      refine ih hm' hn' fun d => ?_
      by_cases hd : a = d
      · subst hd
        rw [Memory.read_below hlt, Memory.read_below hlt']
      · simpa [Memory.read_cons, hd] using h d

/-! ### Writing a list of bytes -/

@[simp] theorem Memory.writeList_nil (m : Memory) (a : Nat) : Memory.writeList c m a [] = m := rfl

theorem Memory.writeList_cons (m : Memory) (a : Nat) (b : Byte) (bs : List Byte) :
    Memory.writeList c m a (b :: bs) = Memory.writeList c (Memory.write c m a b) (a + 1) bs := rfl

/-- Addresses outside the bytes written read as before (R47), whatever the memory. -/
theorem Memory.read_writeList_other (m : Memory) {a b : Nat} {bs : List Byte} (h : b < a ∨ a + bs.length ≤ b) :
    Memory.read c (Memory.writeList c m a bs) b = Memory.read c m b := by
  induction bs generalizing m a with
  | nil => rfl
  | cons x bs ih =>
    simp only [List.length_cons] at h
    rw [Memory.writeList_cons, ih _ (by omega), Memory.read_write_other _ _ (by omega)]

/-- A list of bytes written inside the memory keeps the canonical form. -/
theorem Memory.writeList_wf {m : Memory} (h : Memory.wf c m = true) {a : Nat} {bs : List Byte}
    (ha : a + bs.length ≤ memSize) : Memory.wf c (Memory.writeList c m a bs) = true := by
  induction bs generalizing m a with
  | nil => exact h
  | cons x bs ih =>
    simp only [List.length_cons] at ha
    exact ih (Memory.write_wf h (by omega) x) (by omega)

/-- `MEM[a + k] = bytes[k]` after the write (R47). -/
theorem Memory.read_writeList {m : Memory} (h : Memory.wf c m = true) {a : Nat} {bs : List Byte}
    (ha : a + bs.length ≤ memSize) {k : Nat} (hk : k < bs.length) :
    Memory.read c (Memory.writeList c m a bs) (a + k) = bs[k] := by
  induction bs generalizing m a k with
  | nil => simp at hk
  | cons x bs ih =>
    simp only [List.length_cons] at ha hk
    have hw : Memory.wf c (Memory.write c m a x) = true := Memory.write_wf h (by omega) x
    rw [Memory.writeList_cons]
    cases k with
    | zero =>
      rw [Memory.read_writeList_other _ (.inl (by omega))]
      simpa using Memory.read_write_same h a x
    | succ k =>
      have := ih hw (by omega : a + 1 + bs.length ≤ memSize) (by omega : k < bs.length)
      rw [show a + (k + 1) = a + 1 + k by omega, this]
      simp

/-! ### The access primitives -/

/-- The range check as an inequality on unbounded integers (R45). -/
theorem inRange_iff (a n : Nat) : inRange a n = true ↔ n = 0 ∨ a + n ≤ memSize := by
  simp only [inRange, memSize, Bool.or_eq_true, beq_iff_eq, decide_eq_true_eq]
  omega

/-- All `MemRead` can do (R46). -/
theorem State.memRead_cases (s : State) (a n : Nat) :
    (inRange a n = true ∧ s.memRead a n = some ((List.range n).map fun k => s.readByte (a + k))) ∨
    (inRange a n = false ∧ s.memRead a n = none) := by
  unfold State.memRead
  cases h : inRange a n <;> simp

/-- What a successful `MemRead` returns (R46). -/
theorem State.memRead_some {s : State} {a n : Nat} {bytes : List Byte} (h : s.memRead a n = some bytes) :
    inRange a n = true ∧ bytes = (List.range n).map fun k => s.readByte (a + k) := by
  rcases s.memRead_cases a n with ⟨h1, h2⟩ | ⟨-, h2⟩
  · rw [h2] at h
    exact ⟨h1, by simpa using h.symm⟩
  · rw [h2] at h
    exact absurd h (by simp)

/-- All `MemWrite` can do (R47): nothing but memory changes. -/
theorem State.memWrite_cases (s : State) (a : Nat) (bytes : List Byte) :
    (inRange a bytes.length = true ∧
      s.memWrite a bytes = some { s with mem := Memory.writeList s.config s.mem a bytes }) ∨
    (inRange a bytes.length = false ∧ s.memWrite a bytes = none) := by
  unfold State.memWrite
  cases h : inRange a bytes.length <;> simp

/-- What a successful `MemWrite` does (R47). -/
theorem State.memWrite_some {s t : State} {a : Nat} {bytes : List Byte} (h : s.memWrite a bytes = some t) :
    inRange a bytes.length = true ∧ t = { s with mem := Memory.writeList s.config s.mem a bytes } := by
  rcases s.memWrite_cases a bytes with ⟨h1, h2⟩ | ⟨-, h2⟩
  · rw [h2] at h
    exact ⟨h1, by simpa using h.symm⟩
  · rw [h2] at h
    exact absurd h (by simp)

/-- A `MemWrite` keeps the canonical form. -/
theorem State.memWrite_wf {s t : State} {a : Nat} {bytes : List Byte} (hs : s.mem.wf s.config = true)
    (h : s.memWrite a bytes = some t) : t.mem.wf t.config = true := by
  obtain ⟨hr, rfl⟩ := State.memWrite_some h
  rcases (inRange_iff _ _).1 hr with h0 | h0
  · rw [List.length_eq_zero_iff] at h0
    subst h0
    exact hs
  · exact Memory.writeList_wf hs h0

/-- Placing a word where the next step fetches keeps the canonical form. -/
theorem State.placeWord_wf {s : State} (hs : s.mem.wf s.config = true) (hp : s.pc.toNat + 1 < memSize) (w : Word) :
    (s.placeWord w).mem.wf (s.placeWord w).config = true :=
  Memory.writeList_wf hs (by simp [bytesOfWord]; omega)

/-- All `Fetch` can do (R48). -/
theorem State.fetch_cases (s : State) :
    (s.pc.toNat + 1 ≤ 4095 ∧
      s.fetch = some (wordOfBytes (s.readByte s.pc.toNat) (s.readByte (s.pc.toNat + 1)))) ∨
    (4095 < s.pc.toNat + 1 ∧ s.fetch = none) := by
  unfold State.fetch
  by_cases h : s.pc.toNat + 1 > 4095
  · exact .inr ⟨h, by simp [h]⟩
  · exact .inl ⟨by omega, by simp [h]⟩

/-- What a successful `Fetch` returns (R48). -/
theorem State.fetch_some {s : State} {w : Word} (h : s.fetch = some w) :
    s.pc.toNat + 1 ≤ 4095 ∧ w = wordOfBytes (s.readByte s.pc.toNat) (s.readByte (s.pc.toNat + 1)) := by
  rcases s.fetch_cases with ⟨h1, h2⟩ | ⟨-, h2⟩
  · rw [h2] at h
    exact ⟨h1, by simpa using h.symm⟩
  · rw [h2] at h
    exact absurd h (by simp)

/-- Reset memory is in canonical form. -/
theorem State.reset_mem_wf : State.reset.mem.wf State.reset.config = true := Memory.wf_nil

end Sys2Proof.Machine
end

