-- ==== Sys2Proof/Laws/State.lean ====
section
/-! SUPPORT. One lemma per field per update: what each update of State does to each field (10_state). Later proofs
rewrite with these and never unfold a record update. -/

namespace Sys2Proof.Machine

variable (s : State)

/-! ### setV -/

@[simp] theorem State.setV_v (x : Reg) (b : Byte) : (s.setV x b).v = s.v.set x b := rfl
@[simp] theorem State.setV_i (x : Reg) (b : Byte) : (s.setV x b).i = s.i := rfl
@[simp] theorem State.setV_pc (x : Reg) (b : Byte) : (s.setV x b).pc = s.pc := rfl
@[simp] theorem State.setV_sp (x : Reg) (b : Byte) : (s.setV x b).sp = s.sp := rfl
@[simp] theorem State.setV_stack (x : Reg) (b : Byte) : (s.setV x b).stack = s.stack := rfl
@[simp] theorem State.setV_dt (x : Reg) (b : Byte) : (s.setV x b).dt = s.dt := rfl
@[simp] theorem State.setV_st (x : Reg) (b : Byte) : (s.setV x b).st = s.st := rfl
@[simp] theorem State.setV_mem (x : Reg) (b : Byte) : (s.setV x b).mem = s.mem := rfl
@[simp] theorem State.setV_fb (x : Reg) (b : Byte) : (s.setV x b).fb = s.fb := rfl
@[simp] theorem State.setV_dirty (x : Reg) (b : Byte) : (s.setV x b).dirty = s.dirty := rfl
@[simp] theorem State.setV_keys (x : Reg) (b : Byte) : (s.setV x b).keys = s.keys := rfl
@[simp] theorem State.setV_lastKey (x : Reg) (b : Byte) : (s.setV x b).lastKey = s.lastKey := rfl
@[simp] theorem State.setV_fault (x : Reg) (b : Byte) : (s.setV x b).fault = s.fault := rfl
@[simp] theorem State.setV_cpuGate (x : Reg) (b : Byte) : (s.setV x b).cpuGate = s.cpuGate := rfl
@[simp] theorem State.setV_timerGate (x : Reg) (b : Byte) : (s.setV x b).timerGate = s.timerGate := rfl
@[simp] theorem State.setV_config (x : Reg) (b : Byte) : (s.setV x b).config = s.config := rfl
@[simp] theorem State.setV_inbox (x : Reg) (b : Byte) : (s.setV x b).inbox = s.inbox := rfl
@[simp] theorem State.setV_draws (x : Reg) (b : Byte) : (s.setV x b).draws = s.draws := rfl
@[simp] theorem State.setV_drawIndex (x : Reg) (b : Byte) : (s.setV x b).drawIndex = s.drawIndex := rfl

/-! ### setI -/

@[simp] theorem State.setI_v (w : Word) : (s.setI w).v = s.v := rfl
@[simp] theorem State.setI_i (w : Word) : (s.setI w).i = w := rfl
@[simp] theorem State.setI_pc (w : Word) : (s.setI w).pc = s.pc := rfl
@[simp] theorem State.setI_sp (w : Word) : (s.setI w).sp = s.sp := rfl
@[simp] theorem State.setI_stack (w : Word) : (s.setI w).stack = s.stack := rfl
@[simp] theorem State.setI_dt (w : Word) : (s.setI w).dt = s.dt := rfl
@[simp] theorem State.setI_st (w : Word) : (s.setI w).st = s.st := rfl
@[simp] theorem State.setI_mem (w : Word) : (s.setI w).mem = s.mem := rfl
@[simp] theorem State.setI_fb (w : Word) : (s.setI w).fb = s.fb := rfl
@[simp] theorem State.setI_dirty (w : Word) : (s.setI w).dirty = s.dirty := rfl
@[simp] theorem State.setI_keys (w : Word) : (s.setI w).keys = s.keys := rfl
@[simp] theorem State.setI_lastKey (w : Word) : (s.setI w).lastKey = s.lastKey := rfl
@[simp] theorem State.setI_fault (w : Word) : (s.setI w).fault = s.fault := rfl
@[simp] theorem State.setI_cpuGate (w : Word) : (s.setI w).cpuGate = s.cpuGate := rfl
@[simp] theorem State.setI_timerGate (w : Word) : (s.setI w).timerGate = s.timerGate := rfl
@[simp] theorem State.setI_config (w : Word) : (s.setI w).config = s.config := rfl
@[simp] theorem State.setI_inbox (w : Word) : (s.setI w).inbox = s.inbox := rfl
@[simp] theorem State.setI_draws (w : Word) : (s.setI w).draws = s.draws := rfl
@[simp] theorem State.setI_drawIndex (w : Word) : (s.setI w).drawIndex = s.drawIndex := rfl

/-! ### setPc -/

@[simp] theorem State.setPc_v (w : Word) : (s.setPc w).v = s.v := rfl
@[simp] theorem State.setPc_i (w : Word) : (s.setPc w).i = s.i := rfl
@[simp] theorem State.setPc_pc (w : Word) : (s.setPc w).pc = w := rfl
@[simp] theorem State.setPc_sp (w : Word) : (s.setPc w).sp = s.sp := rfl
@[simp] theorem State.setPc_stack (w : Word) : (s.setPc w).stack = s.stack := rfl
@[simp] theorem State.setPc_dt (w : Word) : (s.setPc w).dt = s.dt := rfl
@[simp] theorem State.setPc_st (w : Word) : (s.setPc w).st = s.st := rfl
@[simp] theorem State.setPc_mem (w : Word) : (s.setPc w).mem = s.mem := rfl
@[simp] theorem State.setPc_fb (w : Word) : (s.setPc w).fb = s.fb := rfl
@[simp] theorem State.setPc_dirty (w : Word) : (s.setPc w).dirty = s.dirty := rfl
@[simp] theorem State.setPc_keys (w : Word) : (s.setPc w).keys = s.keys := rfl
@[simp] theorem State.setPc_lastKey (w : Word) : (s.setPc w).lastKey = s.lastKey := rfl
@[simp] theorem State.setPc_fault (w : Word) : (s.setPc w).fault = s.fault := rfl
@[simp] theorem State.setPc_cpuGate (w : Word) : (s.setPc w).cpuGate = s.cpuGate := rfl
@[simp] theorem State.setPc_timerGate (w : Word) : (s.setPc w).timerGate = s.timerGate := rfl
@[simp] theorem State.setPc_config (w : Word) : (s.setPc w).config = s.config := rfl
@[simp] theorem State.setPc_inbox (w : Word) : (s.setPc w).inbox = s.inbox := rfl
@[simp] theorem State.setPc_draws (w : Word) : (s.setPc w).draws = s.draws := rfl
@[simp] theorem State.setPc_drawIndex (w : Word) : (s.setPc w).drawIndex = s.drawIndex := rfl

/-! ### setDt -/

@[simp] theorem State.setDt_v (b : Byte) : (s.setDt b).v = s.v := rfl
@[simp] theorem State.setDt_i (b : Byte) : (s.setDt b).i = s.i := rfl
@[simp] theorem State.setDt_pc (b : Byte) : (s.setDt b).pc = s.pc := rfl
@[simp] theorem State.setDt_sp (b : Byte) : (s.setDt b).sp = s.sp := rfl
@[simp] theorem State.setDt_stack (b : Byte) : (s.setDt b).stack = s.stack := rfl
@[simp] theorem State.setDt_dt (b : Byte) : (s.setDt b).dt = b := rfl
@[simp] theorem State.setDt_st (b : Byte) : (s.setDt b).st = s.st := rfl
@[simp] theorem State.setDt_mem (b : Byte) : (s.setDt b).mem = s.mem := rfl
@[simp] theorem State.setDt_fb (b : Byte) : (s.setDt b).fb = s.fb := rfl
@[simp] theorem State.setDt_dirty (b : Byte) : (s.setDt b).dirty = s.dirty := rfl
@[simp] theorem State.setDt_keys (b : Byte) : (s.setDt b).keys = s.keys := rfl
@[simp] theorem State.setDt_lastKey (b : Byte) : (s.setDt b).lastKey = s.lastKey := rfl
@[simp] theorem State.setDt_fault (b : Byte) : (s.setDt b).fault = s.fault := rfl
@[simp] theorem State.setDt_cpuGate (b : Byte) : (s.setDt b).cpuGate = s.cpuGate := rfl
@[simp] theorem State.setDt_timerGate (b : Byte) : (s.setDt b).timerGate = s.timerGate := rfl
@[simp] theorem State.setDt_config (b : Byte) : (s.setDt b).config = s.config := rfl
@[simp] theorem State.setDt_inbox (b : Byte) : (s.setDt b).inbox = s.inbox := rfl
@[simp] theorem State.setDt_draws (b : Byte) : (s.setDt b).draws = s.draws := rfl
@[simp] theorem State.setDt_drawIndex (b : Byte) : (s.setDt b).drawIndex = s.drawIndex := rfl

/-! ### setSt -/

@[simp] theorem State.setSt_v (b : Byte) : (s.setSt b).v = s.v := rfl
@[simp] theorem State.setSt_i (b : Byte) : (s.setSt b).i = s.i := rfl
@[simp] theorem State.setSt_pc (b : Byte) : (s.setSt b).pc = s.pc := rfl
@[simp] theorem State.setSt_sp (b : Byte) : (s.setSt b).sp = s.sp := rfl
@[simp] theorem State.setSt_stack (b : Byte) : (s.setSt b).stack = s.stack := rfl
@[simp] theorem State.setSt_dt (b : Byte) : (s.setSt b).dt = s.dt := rfl
@[simp] theorem State.setSt_st (b : Byte) : (s.setSt b).st = b := rfl
@[simp] theorem State.setSt_mem (b : Byte) : (s.setSt b).mem = s.mem := rfl
@[simp] theorem State.setSt_fb (b : Byte) : (s.setSt b).fb = s.fb := rfl
@[simp] theorem State.setSt_dirty (b : Byte) : (s.setSt b).dirty = s.dirty := rfl
@[simp] theorem State.setSt_keys (b : Byte) : (s.setSt b).keys = s.keys := rfl
@[simp] theorem State.setSt_lastKey (b : Byte) : (s.setSt b).lastKey = s.lastKey := rfl
@[simp] theorem State.setSt_fault (b : Byte) : (s.setSt b).fault = s.fault := rfl
@[simp] theorem State.setSt_cpuGate (b : Byte) : (s.setSt b).cpuGate = s.cpuGate := rfl
@[simp] theorem State.setSt_timerGate (b : Byte) : (s.setSt b).timerGate = s.timerGate := rfl
@[simp] theorem State.setSt_config (b : Byte) : (s.setSt b).config = s.config := rfl
@[simp] theorem State.setSt_inbox (b : Byte) : (s.setSt b).inbox = s.inbox := rfl
@[simp] theorem State.setSt_draws (b : Byte) : (s.setSt b).draws = s.draws := rfl
@[simp] theorem State.setSt_drawIndex (b : Byte) : (s.setSt b).drawIndex = s.drawIndex := rfl

/-! ### takeDraw -/

@[simp] theorem State.takeDraw_v : s.takeDraw.v = s.v := rfl
@[simp] theorem State.takeDraw_i : s.takeDraw.i = s.i := rfl
@[simp] theorem State.takeDraw_pc : s.takeDraw.pc = s.pc := rfl
@[simp] theorem State.takeDraw_sp : s.takeDraw.sp = s.sp := rfl
@[simp] theorem State.takeDraw_stack : s.takeDraw.stack = s.stack := rfl
@[simp] theorem State.takeDraw_dt : s.takeDraw.dt = s.dt := rfl
@[simp] theorem State.takeDraw_st : s.takeDraw.st = s.st := rfl
@[simp] theorem State.takeDraw_mem : s.takeDraw.mem = s.mem := rfl
@[simp] theorem State.takeDraw_fb : s.takeDraw.fb = s.fb := rfl
@[simp] theorem State.takeDraw_dirty : s.takeDraw.dirty = s.dirty := rfl
@[simp] theorem State.takeDraw_keys : s.takeDraw.keys = s.keys := rfl
@[simp] theorem State.takeDraw_lastKey : s.takeDraw.lastKey = s.lastKey := rfl
@[simp] theorem State.takeDraw_fault : s.takeDraw.fault = s.fault := rfl
@[simp] theorem State.takeDraw_cpuGate : s.takeDraw.cpuGate = s.cpuGate := rfl
@[simp] theorem State.takeDraw_timerGate : s.takeDraw.timerGate = s.timerGate := rfl
@[simp] theorem State.takeDraw_config : s.takeDraw.config = s.config := rfl
@[simp] theorem State.takeDraw_inbox : s.takeDraw.inbox = s.inbox := rfl
@[simp] theorem State.takeDraw_draws : s.takeDraw.draws = s.draws.tail := rfl
@[simp] theorem State.takeDraw_drawIndex : s.takeDraw.drawIndex = s.drawIndex + 1 := rfl

/-! ### advance -/

@[simp] theorem State.advance_v : s.advance.v = s.v := rfl
@[simp] theorem State.advance_i : s.advance.i = s.i := rfl
@[simp] theorem State.advance_pc : s.advance.pc = s.pc + 2 := rfl
@[simp] theorem State.advance_sp : s.advance.sp = s.sp := rfl
@[simp] theorem State.advance_stack : s.advance.stack = s.stack := rfl
@[simp] theorem State.advance_dt : s.advance.dt = s.dt := rfl
@[simp] theorem State.advance_st : s.advance.st = s.st := rfl
@[simp] theorem State.advance_mem : s.advance.mem = s.mem := rfl
@[simp] theorem State.advance_fb : s.advance.fb = s.fb := rfl
@[simp] theorem State.advance_dirty : s.advance.dirty = s.dirty := rfl
@[simp] theorem State.advance_keys : s.advance.keys = s.keys := rfl
@[simp] theorem State.advance_lastKey : s.advance.lastKey = s.lastKey := rfl
@[simp] theorem State.advance_fault : s.advance.fault = s.fault := rfl
@[simp] theorem State.advance_cpuGate : s.advance.cpuGate = s.cpuGate := rfl
@[simp] theorem State.advance_timerGate : s.advance.timerGate = s.timerGate := rfl
@[simp] theorem State.advance_config : s.advance.config = s.config := rfl
@[simp] theorem State.advance_inbox : s.advance.inbox = s.inbox := rfl
@[simp] theorem State.advance_draws : s.advance.draws = s.draws := rfl
@[simp] theorem State.advance_drawIndex : s.advance.drawIndex = s.drawIndex := rfl

/-! ### rewind -/

@[simp] theorem State.rewind_v : s.rewind.v = s.v := rfl
@[simp] theorem State.rewind_i : s.rewind.i = s.i := rfl
@[simp] theorem State.rewind_pc : s.rewind.pc = s.pc - 2 := rfl
@[simp] theorem State.rewind_sp : s.rewind.sp = s.sp := rfl
@[simp] theorem State.rewind_stack : s.rewind.stack = s.stack := rfl
@[simp] theorem State.rewind_dt : s.rewind.dt = s.dt := rfl
@[simp] theorem State.rewind_st : s.rewind.st = s.st := rfl
@[simp] theorem State.rewind_mem : s.rewind.mem = s.mem := rfl
@[simp] theorem State.rewind_fb : s.rewind.fb = s.fb := rfl
@[simp] theorem State.rewind_dirty : s.rewind.dirty = s.dirty := rfl
@[simp] theorem State.rewind_keys : s.rewind.keys = s.keys := rfl
@[simp] theorem State.rewind_lastKey : s.rewind.lastKey = s.lastKey := rfl
@[simp] theorem State.rewind_fault : s.rewind.fault = s.fault := rfl
@[simp] theorem State.rewind_cpuGate : s.rewind.cpuGate = s.cpuGate := rfl
@[simp] theorem State.rewind_timerGate : s.rewind.timerGate = s.timerGate := rfl
@[simp] theorem State.rewind_config : s.rewind.config = s.config := rfl
@[simp] theorem State.rewind_inbox : s.rewind.inbox = s.inbox := rfl
@[simp] theorem State.rewind_draws : s.rewind.draws = s.draws := rfl
@[simp] theorem State.rewind_drawIndex : s.rewind.drawIndex = s.drawIndex := rfl

/-! ### clear -/

@[simp] theorem State.clear_v : s.clear.v = s.v := rfl
@[simp] theorem State.clear_i : s.clear.i = s.i := rfl
@[simp] theorem State.clear_pc : s.clear.pc = s.pc := rfl
@[simp] theorem State.clear_sp : s.clear.sp = s.sp := rfl
@[simp] theorem State.clear_stack : s.clear.stack = s.stack := rfl
@[simp] theorem State.clear_dt : s.clear.dt = s.dt := rfl
@[simp] theorem State.clear_st : s.clear.st = s.st := rfl
@[simp] theorem State.clear_mem : s.clear.mem = s.mem := rfl
@[simp] theorem State.clear_fb : s.clear.fb = FrameBuffer.blank := rfl
@[simp] theorem State.clear_dirty : s.clear.dirty = true := rfl
@[simp] theorem State.clear_keys : s.clear.keys = s.keys := rfl
@[simp] theorem State.clear_lastKey : s.clear.lastKey = s.lastKey := rfl
@[simp] theorem State.clear_fault : s.clear.fault = s.fault := rfl
@[simp] theorem State.clear_cpuGate : s.clear.cpuGate = s.cpuGate := rfl
@[simp] theorem State.clear_timerGate : s.clear.timerGate = s.timerGate := rfl
@[simp] theorem State.clear_config : s.clear.config = s.config := rfl
@[simp] theorem State.clear_inbox : s.clear.inbox = s.inbox := rfl
@[simp] theorem State.clear_draws : s.clear.draws = s.draws := rfl
@[simp] theorem State.clear_drawIndex : s.clear.drawIndex = s.drawIndex := rfl

/-! ### setFlag -/

@[simp] theorem State.setFlag_v (f : Byte) : (s.setFlag f).v = s.v.set regVF f := rfl
@[simp] theorem State.setFlag_i (f : Byte) : (s.setFlag f).i = s.i := rfl
@[simp] theorem State.setFlag_pc (f : Byte) : (s.setFlag f).pc = s.pc := rfl
@[simp] theorem State.setFlag_sp (f : Byte) : (s.setFlag f).sp = s.sp := rfl
@[simp] theorem State.setFlag_stack (f : Byte) : (s.setFlag f).stack = s.stack := rfl
@[simp] theorem State.setFlag_dt (f : Byte) : (s.setFlag f).dt = s.dt := rfl
@[simp] theorem State.setFlag_st (f : Byte) : (s.setFlag f).st = s.st := rfl
@[simp] theorem State.setFlag_mem (f : Byte) : (s.setFlag f).mem = s.mem := rfl
@[simp] theorem State.setFlag_fb (f : Byte) : (s.setFlag f).fb = s.fb := rfl
@[simp] theorem State.setFlag_dirty (f : Byte) : (s.setFlag f).dirty = s.dirty := rfl
@[simp] theorem State.setFlag_keys (f : Byte) : (s.setFlag f).keys = s.keys := rfl
@[simp] theorem State.setFlag_lastKey (f : Byte) : (s.setFlag f).lastKey = s.lastKey := rfl
@[simp] theorem State.setFlag_fault (f : Byte) : (s.setFlag f).fault = s.fault := rfl
@[simp] theorem State.setFlag_cpuGate (f : Byte) : (s.setFlag f).cpuGate = s.cpuGate := rfl
@[simp] theorem State.setFlag_timerGate (f : Byte) : (s.setFlag f).timerGate = s.timerGate := rfl
@[simp] theorem State.setFlag_config (f : Byte) : (s.setFlag f).config = s.config := rfl
@[simp] theorem State.setFlag_inbox (f : Byte) : (s.setFlag f).inbox = s.inbox := rfl
@[simp] theorem State.setFlag_draws (f : Byte) : (s.setFlag f).draws = s.draws := rfl
@[simp] theorem State.setFlag_drawIndex (f : Byte) : (s.setFlag f).drawIndex = s.drawIndex := rfl

/-! ### skipIf: only the program counter -/

@[simp] theorem State.skipIf_pc (c : Bool) : (s.skipIf c).pc = if c then s.pc + 2 else s.pc := by
  cases c <;> rfl

/-- A skip changes nothing but `PC` (40_control_flow R82). -/
theorem State.skipIf_eq (c : Bool) : s.skipIf c = { s with pc := if c then s.pc + 2 else s.pc } := by
  cases c <;> rfl

@[simp] theorem State.skipIf_v (c : Bool) : (s.skipIf c).v = s.v := by cases c <;> rfl
@[simp] theorem State.skipIf_i (c : Bool) : (s.skipIf c).i = s.i := by cases c <;> rfl
@[simp] theorem State.skipIf_sp (c : Bool) : (s.skipIf c).sp = s.sp := by cases c <;> rfl
@[simp] theorem State.skipIf_stack (c : Bool) : (s.skipIf c).stack = s.stack := by cases c <;> rfl
@[simp] theorem State.skipIf_dt (c : Bool) : (s.skipIf c).dt = s.dt := by cases c <;> rfl
@[simp] theorem State.skipIf_st (c : Bool) : (s.skipIf c).st = s.st := by cases c <;> rfl
@[simp] theorem State.skipIf_mem (c : Bool) : (s.skipIf c).mem = s.mem := by cases c <;> rfl
@[simp] theorem State.skipIf_fb (c : Bool) : (s.skipIf c).fb = s.fb := by cases c <;> rfl
@[simp] theorem State.skipIf_dirty (c : Bool) : (s.skipIf c).dirty = s.dirty := by cases c <;> rfl
@[simp] theorem State.skipIf_keys (c : Bool) : (s.skipIf c).keys = s.keys := by cases c <;> rfl
@[simp] theorem State.skipIf_lastKey (c : Bool) : (s.skipIf c).lastKey = s.lastKey := by cases c <;> rfl
@[simp] theorem State.skipIf_fault (c : Bool) : (s.skipIf c).fault = s.fault := by cases c <;> rfl
@[simp] theorem State.skipIf_cpuGate (c : Bool) : (s.skipIf c).cpuGate = s.cpuGate := by cases c <;> rfl
@[simp] theorem State.skipIf_timerGate (c : Bool) : (s.skipIf c).timerGate = s.timerGate := by cases c <;> rfl
@[simp] theorem State.skipIf_config (c : Bool) : (s.skipIf c).config = s.config := by cases c <;> rfl
@[simp] theorem State.skipIf_inbox (c : Bool) : (s.skipIf c).inbox = s.inbox := by cases c <;> rfl
@[simp] theorem State.skipIf_draws (c : Bool) : (s.skipIf c).draws = s.draws := by cases c <;> rfl
@[simp] theorem State.skipIf_drawIndex (c : Bool) : (s.skipIf c).drawIndex = s.drawIndex := by cases c <;> rfl

/-! ### Reading a register after an update -/

/-- A register reads back what was written to it, and a write to it leaves the others alone (10_state R10). -/
theorem State.getV_setV (x r : Reg) (b : Byte) : (s.setV x b).getV r = if r = x then b else s.getV r := by
  unfold State.getV State.setV
  by_cases h : r = x
  · subst h; simp
  · have : x.val ≠ r.val := fun e => h (Fin.ext e.symm)
    simp [this, h]

@[simp] theorem State.getV_setV_same (x : Reg) (b : Byte) : (s.setV x b).getV x = b := by simp [State.getV_setV]

theorem State.getV_setV_other {x r : Reg} (b : Byte) (h : r ≠ x) : (s.setV x b).getV r = s.getV r := by
  simp [State.getV_setV, h]

/-- Reading a register depends on the register file alone. -/
theorem State.getV_congr {s t : State} (h : t.v = s.v) (r : Reg) : t.getV r = s.getV r := by
  simp [State.getV, h]

@[simp] theorem State.getV_advance (r : Reg) : s.advance.getV r = s.getV r := rfl
@[simp] theorem State.getV_setPc (w : Word) (r : Reg) : (s.setPc w).getV r = s.getV r := rfl
@[simp] theorem State.getV_setI (w : Word) (r : Reg) : (s.setI w).getV r = s.getV r := rfl
@[simp] theorem State.getV_takeDraw (r : Reg) : s.takeDraw.getV r = s.getV r := rfl

theorem State.getV_setFlag (f : Byte) (r : Reg) : (s.setFlag f).getV r = if r = 15 then f else s.getV r :=
  State.getV_setV s 15 r f

/-- Two states with the same registers by name have the same register file. -/
theorem State.v_ext {s t : State} (h : ∀ r : Reg, t.getV r = s.getV r) : t.v = s.v := by
  apply Vector.ext
  intro k hk
  exact h ⟨k, hk⟩

end Sys2Proof.Machine
end

