-- ==== Sys2Proof/Laws/Ops.lean ====
section
/-! SUPPORT. One lemma per shared operation that says all it can do: the call stack, key indexes, register ranges, the
framebuffer's pixel operations, the fault latch. -/

namespace Sys2Proof.Machine

/-! ### Faults -/

/-- A raise sets the latch in the state the step began in, and changes nothing else (60_exceptions R166, R170). -/
theorem raise_eq (c : Cause) (s : State) : raise c s = .next { s with fault := some ⟨c, s.pc⟩ } := rfl

/-! ### Call stack (10_state R18) -/

/-- All a push can do. -/
theorem State.push_cases (s : State) (w : Word) :
    (s.sp.val = 16 ∧ s.push w = none) ∨
    (∃ _h : s.sp.val < 16,
      s.push w = some { s with stack := s.stack.set s.sp.val w, sp := ⟨s.sp.val + 1, by omega⟩ }) := by
  unfold State.push
  by_cases h : s.sp.val < 16
  · exact .inr ⟨h, by simp [h]⟩
  · exact .inl ⟨by omega, by simp [h]⟩

/-- All a pop can do. -/
theorem State.pop_cases (s : State) :
    (s.sp.val = 0 ∧ s.pop = none) ∨
    (∃ _h : s.sp.val ≠ 0,
      s.pop = some (s.stack[s.sp.val - 1]'(by omega), { s with sp := ⟨s.sp.val - 1, by omega⟩ })) := by
  unfold State.pop
  by_cases h : s.sp.val = 0
  · exact .inl ⟨h, by simp [h]⟩
  · exact .inr ⟨h, by simp [h]⟩

/-! ### Key indexes (44_input_timers R152) -/

/-- All `keyOf` can answer. -/
theorem keyOf_cases (v : Byte) :
    (∃ k : Nibble, keyOf v = some k ∧ k.val = v.toNat) ∨ (15 < v.toNat ∧ keyOf v = none) := by
  unfold keyOf
  by_cases h : v.toNat < 16
  · exact .inl ⟨⟨v.toNat, h⟩, by simp [h], rfl⟩
  · exact .inr ⟨by omega, by simp [h]⟩

/-! ### Register ranges (42_index_memory R125, R126) -/

@[simp] theorem State.length_regsThrough (s : State) (x : Reg) : (s.regsThrough x).length = x.val + 1 := by
  simp [State.regsThrough]

/-- The range holds the registers in order (R125). -/
theorem State.getElem_regsThrough (s : State) (x : Reg) {k : Nat} (h : k < (s.regsThrough x).length) :
    (s.regsThrough x)[k] = s.getV ⟨k, by simp at h; omega⟩ := by
  simp [State.regsThrough, State.getV]

/-- Loading pairs of register and byte: a register named by no pair is left alone. -/
theorem foldl_setV_other (ps : List (Reg × Byte)) (s : State) {r : Reg} (h : ∀ p ∈ ps, p.1 ≠ r) :
    (ps.foldl (fun t p => t.setV p.1 p.2) s).getV r = s.getV r := by
  induction ps generalizing s with
  | nil => rfl
  | cons p ps ih =>
    rw [List.foldl_cons, ih _ fun q hq => h q (by simp [hq]), State.getV_setV_other]
    exact Ne.symm (h p (by simp))

/-- Loading pairs of register and byte, no register twice: each register named reads its byte. -/
theorem foldl_setV_mem (ps : List (Reg × Byte)) (s : State) (hn : (ps.map Prod.fst).Nodup) {p : Reg × Byte}
    (hp : p ∈ ps) : (ps.foldl (fun t p => t.setV p.1 p.2) s).getV p.1 = p.2 := by
  induction ps generalizing s with
  | nil => simp at hp
  | cons q ps ih =>
    simp only [List.map_cons, List.nodup_cons, List.mem_map, not_exists, not_and] at hn
    rw [List.foldl_cons]
    rcases List.mem_cons.1 hp with rfl | hp
    · rw [foldl_setV_other _ _ fun r hr e => hn.1 r hr e]
      simp
    · exact ih _ hn.2 hp

/-- Every field but the register file is untouched by a load of registers. -/
theorem foldl_setV_frame (ps : List (Reg × Byte)) (s : State) :
    ps.foldl (fun t p => t.setV p.1 p.2) s = { s with v := (ps.foldl (fun t p => t.setV p.1 p.2) s).v } := by
  induction ps generalizing s with
  | nil => rfl
  | cons p ps ih =>
    rw [List.foldl_cons, ih]
    rfl

/-- A load of registers changes the register file and nothing else (R126). -/
theorem State.loadRegs_frame (s : State) (bytes : List Byte) :
    s.loadRegs bytes = { s with v := (s.loadRegs bytes).v } := foldl_setV_frame _ s

theorem map_fst_zip_sublist {α β : Type} (l : List α) (m : List β) : ((l.zip m).map Prod.fst).Sublist l := by
  induction l generalizing m with
  | nil => simp
  | cons a l ih =>
    cases m with
    | nil => simp
    | cons b m => simpa using ih m

/-- `V[k] <- b[k]` for the bytes there are; the registers above keep their values (R126). -/
theorem State.getV_loadRegs (s : State) (bytes : List Byte) (r : Reg) :
    (s.loadRegs bytes).getV r = if h : r.val < bytes.length then bytes[r.val] else s.getV r := by
  unfold State.loadRegs
  split
  · next h =>
    have hmem : (r, bytes[r.val]) ∈ (List.finRange 16).zip bytes := by
      rw [List.mem_iff_getElem]
      refine ⟨r.val, by simp; omega, by simp⟩
    refine foldl_setV_mem _ s ?_ hmem
    exact (List.nodup_finRange 16).sublist (map_fst_zip_sublist _ _)
  · next h =>
    refine foldl_setV_other _ s fun p hp e => h ?_
    obtain ⟨k, hk, rfl⟩ := List.mem_iff_getElem.1 hp
    simp at hk e
    subst e
    simp
    omega

@[simp] theorem length_bcdDigits (v : Byte) : (bcdDigits v).length = 3 := rfl

/-! ### Pixels (43_display R135) -/

/-- The pixel addressed by coordinates already reduced. -/
theorem FrameBuffer.pixel_mod (fb : FrameBuffer) (cx cy : Nat) : fb.pixel (cx % 64) (cy % 32) = fb.pixel cx cy := by
  simp [FrameBuffer.pixel]

/-- Flipping a pixel inverts it and leaves every other one alone. -/
theorem FrameBuffer.pixel_flip (fb : FrameBuffer) (cx cy dx dy : Nat) :
    (fb.flip cx cy).pixel dx dy =
      if cx % 64 = dx % 64 ∧ cy % 32 = dy % 32 then !fb.pixel dx dy else fb.pixel dx dy := by
  unfold FrameBuffer.flip FrameBuffer.pixel
  by_cases hy : cy % 32 = dy % 32
  · by_cases hx : cx % 64 = dx % 64
    · simp [hx, hy]
    · simp [hx, hy]
  · simp [hy]

/-- Two grids with the same pixels are the same grid. -/
theorem FrameBuffer.ext_pixel {fb gb : FrameBuffer} (h : ∀ cx < 64, ∀ cy < 32, fb.pixel cx cy = gb.pixel cx cy) :
    fb = gb := by
  apply Vector.ext
  intro r hr
  apply Vector.ext
  intro k hk
  have := h k hk r hr
  simp only [FrameBuffer.pixel] at this
  simpa only [Nat.mod_eq_of_lt hr, Nat.mod_eq_of_lt hk] using this

theorem FrameBuffer.pixel_blank (cx cy : Nat) : FrameBuffer.blank.pixel cx cy = false := by
  simp [FrameBuffer.blank, FrameBuffer.pixel]

end Sys2Proof.Machine
end

