-- ==== Sys2Proof/Laws/Operands.lean ====
section
/-! SUPPORT. The operand forms, the flag computations, the timers and the store at `I` as numbers; the word at `PC` and
what a fetch gives; the key latch under a batch of events; a list of events delivered in two parts. -/

namespace Sys2Proof.Machine

/-! ### Operand forms -/

@[simp] theorem zext12_toNat (a : Addr12) : (zext12 a).toNat = a.toNat := by
  have := a.isLt
  simp [zext12]
  omega

@[simp] theorem zext8_toNat (b : Byte) : (zext8 b).toNat = b.toNat := by
  have := b.isLt
  simp [zext8]
  omega

/-- `PC` after the advance, where the fetch succeeded (40_control_flow R81). -/
theorem pc_add_two {w : Word} (h : w.toNat + 1 ≤ 4095) : (w + 2#16).toNat = w.toNat + 2 := by
  rw [BitVec.toNat_add]
  simp
  omega

/-- The two advances of a skip are one of four (40_control_flow R82). -/
theorem pc_add_two_two (w : Word) : w + 2#16 + 2#16 = w + 4#16 := by
  rw [BitVec.add_assoc]
  rfl

/-! ### Flags -/

theorem flagByte_toNat (b : Bool) : (flagByte b).toNat = if b then 1 else 0 := by cases b <;> rfl

theorem lowBitOut_toNat : ∀ a : Byte, (lowBitOut a).toNat = a.toNat % 2 := by decide

theorem highBitOut_toNat : ∀ a : Byte, (highBitOut a).toNat = a.toNat / 128 := by decide

/-! ### Timers -/

theorem tick_toNat : ∀ b : Byte, (tick b).toNat = b.toNat - 1 := by decide

/-! ### Stores at `I` -/

/-- All a store at `I` can do: fault, or write the bytes and advance. -/
theorem storeAtI_cases (bytes : List Byte) (s : State) :
    (inRange (s.effectiveAddress 0) bytes.length = false ∧
      storeAtI bytes s = raise (.memBounds s.i bytes.length) s) ∨
    (inRange (s.effectiveAddress 0) bytes.length = true ∧
      storeAtI bytes s =
        .next { s with pc := s.pc + 2, mem := Memory.writeList s.config s.mem (s.effectiveAddress 0) bytes }) := by
  unfold storeAtI
  rcases s.advance.memWrite_cases (s.effectiveAddress 0) bytes with ⟨h, e⟩ | ⟨h, e⟩
  · rw [e]; exact .inr ⟨h, rfl⟩
  · rw [e]; exact .inl ⟨h, rfl⟩

/-! ### The word at `PC` -/

/-- The two bytes at `PC`, the first one high, are the word at `PC`. -/
theorem wordOfBytes_at_pc (s : State) :
    wordOfBytes (s.readByte s.pc.toNat) (s.readByte (s.pc.toNat + 1)) = s.wordAtPc := by
  apply BitVec.eq_of_toNat_eq
  have h0 := (s.readByte s.pc.toNat).isLt
  have h1 := (s.readByte (s.pc.toNat + 1)).isLt
  rw [toNat_wordOfBytes, State.wordAtPc, BitVec.toNat_ofNat]
  omega

theorem State.fetch_eq_wordAtPc {s : State} (h : s.pc.toNat + 1 ≤ 4095) : s.fetch = some s.wordAtPc := by
  rcases s.fetch_cases with ⟨-, h2⟩ | ⟨h2, -⟩
  · rw [h2, wordOfBytes_at_pc]
  · omega

theorem State.fetch_eq_none {s : State} (h : 4095 < s.pc.toNat + 1) : s.fetch = none := by
  rcases s.fetch_cases with ⟨h2, -⟩ | ⟨-, h2⟩
  · omega
  · exact h2

/-! ### The key latch -/

/-- All one event of a batch can do (44_input_timers R151). -/
theorem State.applyKeyEvents_cons (s : State) (e : KeyEvent) (es : List KeyEvent) :
    (∃ h : e.key < 16, State.applyKeyEvents s (e :: es) = State.applyKeyEvents (s.keyEvent e.kind ⟨e.key, h⟩) es) ∨
    (16 ≤ e.key ∧ State.applyKeyEvents s (e :: es) = .refused (.keyEventOutOfRange e.key)) := by
  by_cases h : e.key < 16
  · exact .inl ⟨h, by simp [State.applyKeyEvents, h]⟩
  · exact .inr ⟨by omega, by simp [State.applyKeyEvents, h]⟩

/-- A key event changes the latch and nothing else. -/
theorem State.keyEvent_frame (s : State) (kind : KeyEventKind) (k : Nibble) :
    s.keyEvent kind k = { s with keys := (s.keyEvent kind k).keys, lastKey := (s.keyEvent kind k).lastKey } := by
  cases kind <;> rfl

/-- A batch changes the latch and nothing else (44_input_timers R151). -/
theorem State.applyKeyEvents_frame {s t : State} {es : List KeyEvent} (h : State.applyKeyEvents s es = .next t) :
    t = { s with keys := t.keys, lastKey := t.lastKey } := by
  induction es generalizing s with
  | nil => rw [← Host.Outcome.next.inj h]
  | cons e es ih =>
    rcases s.applyKeyEvents_cons e es with ⟨hk, he⟩ | ⟨-, he⟩
    · rw [ih (he.symm.trans h), State.keyEvent_frame]
    · exact absurd (he.symm.trans h) (by simp)

/-- `InputBatch` changes the latch and nothing else, halted or not. -/
theorem inputBatch_frame {s t : State} {es : List KeyEvent} (h : inputBatch es s = .next t) :
    t = { s with keys := t.keys, lastKey := t.lastKey } := by
  unfold inputBatch at h
  split at h
  · rw [← Host.Outcome.next.inj h]
  · exact State.applyKeyEvents_frame (s := { s with lastKey := none }) h

/-- The key of the event is as the event says; the others stay. -/
theorem State.isPressed_keyEvent (s : State) (kind : KeyEventKind) (k j : Nibble) :
    (s.keyEvent kind k).isPressed j = if j = k then kind == .press else s.isPressed j := by
  by_cases h : j = k
  · subst h
    cases kind <;> simp [State.keyEvent, State.isPressed]
  · have hv : k.val ≠ j.val := fun e => h (Fin.ext e.symm)
    cases kind <;> simp [State.keyEvent, State.isPressed, h, hv]

/-! ### Lists of events -/

/-- The events of two lists, one list after the other. -/
theorem deliverAll_append (es fs : List Event) (s : State) :
    deliverAll (es ++ fs) s =
      match deliverAll es s with
      | .next t => deliverAll fs t
      | .fault r => .fault r
      | .refused r => .refused r := by
  induction es generalizing s with
  | nil => rfl
  | cons e es ih =>
    simp only [List.cons_append, deliverAll]
    cases deliver e s with
    | next t => exact ih t
    | fault r => rfl
    | refused r => rfl

end Sys2Proof.Machine
end

