-- ==== Sys2Proof/Laws/PerInstr.lean ====
section
/-! SUPPORT. Facts about instructions as syntax, one lemma per constructor. Family RowPattern: the word of a well-formed
instruction lies in its own row of the opcode map (30_encoding R66, R71). -/

namespace Sys2Proof.Laws.RowPattern

/-- The encoder's word of `i` is covered by the row of the opcode map that carries `i`'s mnemonic. -/
def Statement (i : Instr) : Prop :=
  i.wellFormed = true → ∃ r ∈ opcodeMap, r.mnemonic = i.mnemonic ∧ r.covers (encode i) = true

/-- A row with the mask 0xF000 covers every word of format A with its top nibble, but for SYS's two exceptions. -/
theorem covers_packA {m : String} (hm : m ≠ "SYS") (op : Nibble) (nnn : Addr12) :
    (OpcodeRow.mk m (packXYN op 0 0 0) 0xF000).covers (packA op nnn) = true := by
  simp [OpcodeRow.covers, mask_top, hm]

theorem covers_packXK {m : String} (hm : m ≠ "SYS") (op x : Nibble) (kk : Byte) :
    (OpcodeRow.mk m (packXYN op 0 0 0) 0xF000).covers (packXK op x kk) = true := by
  simp [OpcodeRow.covers, mask_top, hm]

theorem covers_drw {m : String} (hm : m ≠ "SYS") (op x y n : Nibble) :
    (OpcodeRow.mk m (packXYN op 0 0 0) 0xF000).covers (packXYN op x y n) = true := by
  simp [OpcodeRow.covers, mask_top, hm]

/-- A row with the mask 0xF00F covers every word of format XY with its two nibbles. -/
theorem covers_packXYN {m : String} (hm : m ≠ "SYS") (op x y n : Nibble) :
    (OpcodeRow.mk m (packXYN op 0 0 n) 0xF00F).covers (packXYN op x y n) = true := by
  simp [OpcodeRow.covers, mask_lowNibble, hm]

/-- A row with the mask 0xF0FF covers every word of format XS with its top nibble and low byte. -/
theorem covers_packXS {m : String} (hm : m ≠ "SYS") (op x : Nibble) (kk : Byte) :
    (OpcodeRow.mk m (packXK op 0 kk) 0xF0FF).covers (packXK op x kk) = true := by
  simp [OpcodeRow.covers, mask_lowByte, hm]

theorem sys (nnn : Addr12) : Statement (.sys nnn) := by
  intro h
  simp only [Instr.wellFormed, sysLiteralOk, Bool.and_eq_true, bne_iff_ne] at h
  refine ⟨⟨"SYS", 0x0000, 0xF000⟩, by decide, rfl, ?_⟩
  have h1 : packA 0 nnn ≠ 0x00E0#16 := fun e => h.1 (by rw [← fieldNNN_packA 0 nnn, e]; rfl)
  have h2 : packA 0 nnn ≠ 0x00EE#16 := fun e => h.2 (by rw [← fieldNNN_packA 0 nnn, e]; rfl)
  have h3 : packA 0 nnn &&& 0xF000#16 = 0#16 := by rw [mask_top, fieldOp_packA]; rfl
  simp [OpcodeRow.covers, encode, h1, h2, h3]

theorem cls : Statement .cls :=
  fun _ => ⟨⟨"CLS", 0x00E0, 0xFFFF⟩, by decide, rfl, by decide⟩

theorem ret : Statement .ret :=
  fun _ => ⟨⟨"RET", 0x00EE, 0xFFFF⟩, by decide, rfl, by decide⟩

theorem jp (nnn : Addr12) : Statement (.jp nnn) :=
  fun _ => ⟨⟨"JP", 0x1000, 0xF000⟩, by decide, rfl, covers_packA (by decide) 0x1 nnn⟩

theorem call (nnn : Addr12) : Statement (.call nnn) :=
  fun _ => ⟨⟨"CALL", 0x2000, 0xF000⟩, by decide, rfl, covers_packA (by decide) 0x2 nnn⟩

theorem seRV (x : Reg) (kk : Byte) : Statement (.seRV x kk) :=
  fun _ => ⟨⟨"SE_RV", 0x3000, 0xF000⟩, by decide, rfl, covers_packXK (by decide) 0x3 x kk⟩

theorem sneRV (x : Reg) (kk : Byte) : Statement (.sneRV x kk) :=
  fun _ => ⟨⟨"SNE_RV", 0x4000, 0xF000⟩, by decide, rfl, covers_packXK (by decide) 0x4 x kk⟩

theorem seRR (x y : Reg) : Statement (.seRR x y) :=
  fun _ => ⟨⟨"SE_RR", 0x5000, 0xF00F⟩, by decide, rfl, covers_packXYN (by decide) 0x5 x y 0x0⟩

theorem ldRV (x : Reg) (kk : Byte) : Statement (.ldRV x kk) :=
  fun _ => ⟨⟨"LD_RV", 0x6000, 0xF000⟩, by decide, rfl, covers_packXK (by decide) 0x6 x kk⟩

theorem addRV (x : Reg) (kk : Byte) : Statement (.addRV x kk) :=
  fun _ => ⟨⟨"ADD_RV", 0x7000, 0xF000⟩, by decide, rfl, covers_packXK (by decide) 0x7 x kk⟩

theorem ldRR (x y : Reg) : Statement (.ldRR x y) :=
  fun _ => ⟨⟨"LD_RR", 0x8000, 0xF00F⟩, by decide, rfl, covers_packXYN (by decide) 0x8 x y 0x0⟩

theorem or (x y : Reg) : Statement (.or x y) :=
  fun _ => ⟨⟨"OR", 0x8001, 0xF00F⟩, by decide, rfl, covers_packXYN (by decide) 0x8 x y 0x1⟩

theorem and (x y : Reg) : Statement (.and x y) :=
  fun _ => ⟨⟨"AND", 0x8002, 0xF00F⟩, by decide, rfl, covers_packXYN (by decide) 0x8 x y 0x2⟩

theorem xor (x y : Reg) : Statement (.xor x y) :=
  fun _ => ⟨⟨"XOR", 0x8003, 0xF00F⟩, by decide, rfl, covers_packXYN (by decide) 0x8 x y 0x3⟩

theorem addRR (x y : Reg) : Statement (.addRR x y) :=
  fun _ => ⟨⟨"ADD_RR", 0x8004, 0xF00F⟩, by decide, rfl, covers_packXYN (by decide) 0x8 x y 0x4⟩

theorem subRR (x y : Reg) : Statement (.subRR x y) :=
  fun _ => ⟨⟨"SUB_RR", 0x8005, 0xF00F⟩, by decide, rfl, covers_packXYN (by decide) 0x8 x y 0x5⟩

theorem shr (x y : Reg) : Statement (.shr x y) :=
  fun _ => ⟨⟨"SHR", 0x8006, 0xF00F⟩, by decide, rfl, covers_packXYN (by decide) 0x8 x y 0x6⟩

theorem subn (x y : Reg) : Statement (.subn x y) :=
  fun _ => ⟨⟨"SUBN", 0x8007, 0xF00F⟩, by decide, rfl, covers_packXYN (by decide) 0x8 x y 0x7⟩

theorem shl (x y : Reg) : Statement (.shl x y) :=
  fun _ => ⟨⟨"SHL", 0x800E, 0xF00F⟩, by decide, rfl, covers_packXYN (by decide) 0x8 x y 0xE⟩

theorem sneRR (x y : Reg) : Statement (.sneRR x y) :=
  fun _ => ⟨⟨"SNE_RR", 0x9000, 0xF00F⟩, by decide, rfl, covers_packXYN (by decide) 0x9 x y 0x0⟩

theorem ldIV (nnn : Addr12) : Statement (.ldIV nnn) :=
  fun _ => ⟨⟨"LD_IV", 0xA000, 0xF000⟩, by decide, rfl, covers_packA (by decide) 0xA nnn⟩

theorem jpRV (nnn : Addr12) : Statement (.jpRV nnn) :=
  fun _ => ⟨⟨"JP_RV", 0xB000, 0xF000⟩, by decide, rfl, covers_packA (by decide) 0xB nnn⟩

theorem rnd (x : Reg) (kk : Byte) : Statement (.rnd x kk) :=
  fun _ => ⟨⟨"RND", 0xC000, 0xF000⟩, by decide, rfl, covers_packXK (by decide) 0xC x kk⟩

theorem drw (x y : Reg) (n : Nibble) : Statement (.drw x y n) :=
  fun _ => ⟨⟨"DRW", 0xD000, 0xF000⟩, by decide, rfl, covers_drw (by decide) 0xD x y n⟩

theorem skp (x : Reg) : Statement (.skp x) :=
  fun _ => ⟨⟨"SKP", 0xE09E, 0xF0FF⟩, by decide, rfl, covers_packXS (by decide) 0xE x 0x9E⟩

theorem sknp (x : Reg) : Statement (.sknp x) :=
  fun _ => ⟨⟨"SKNP", 0xE0A1, 0xF0FF⟩, by decide, rfl, covers_packXS (by decide) 0xE x 0xA1⟩

theorem ldRD (x : Reg) : Statement (.ldRD x) :=
  fun _ => ⟨⟨"LD_RD", 0xF007, 0xF0FF⟩, by decide, rfl, covers_packXS (by decide) 0xF x 0x07⟩

theorem ldRK (x : Reg) : Statement (.ldRK x) :=
  fun _ => ⟨⟨"LD_RK", 0xF00A, 0xF0FF⟩, by decide, rfl, covers_packXS (by decide) 0xF x 0x0A⟩

theorem ldDR (x : Reg) : Statement (.ldDR x) :=
  fun _ => ⟨⟨"LD_DR", 0xF015, 0xF0FF⟩, by decide, rfl, covers_packXS (by decide) 0xF x 0x15⟩

theorem ldSR (x : Reg) : Statement (.ldSR x) :=
  fun _ => ⟨⟨"LD_SR", 0xF018, 0xF0FF⟩, by decide, rfl, covers_packXS (by decide) 0xF x 0x18⟩

theorem addIR (x : Reg) : Statement (.addIR x) :=
  fun _ => ⟨⟨"ADD_IR", 0xF01E, 0xF0FF⟩, by decide, rfl, covers_packXS (by decide) 0xF x 0x1E⟩

theorem ldRF (x : Reg) : Statement (.ldRF x) :=
  fun _ => ⟨⟨"LD_RF", 0xF029, 0xF0FF⟩, by decide, rfl, covers_packXS (by decide) 0xF x 0x29⟩

theorem ldBR (x : Reg) : Statement (.ldBR x) :=
  fun _ => ⟨⟨"LD_BR", 0xF033, 0xF0FF⟩, by decide, rfl, covers_packXS (by decide) 0xF x 0x33⟩

theorem ldIRR (x : Reg) : Statement (.ldIRR x) :=
  fun _ => ⟨⟨"LD_IRR", 0xF055, 0xF0FF⟩, by decide, rfl, covers_packXS (by decide) 0xF x 0x55⟩

theorem ldRRI (x : Reg) : Statement (.ldRRI x) :=
  fun _ => ⟨⟨"LD_RRI", 0xF065, 0xF0FF⟩, by decide, rfl, covers_packXS (by decide) 0xF x 0x65⟩

end Sys2Proof.Laws.RowPattern
end

