-- ==== Sys2Proof/Laws/Step.lean ====
section
/-! SUPPORT. What a step can do, said once: the cases of `CpuStep` (40_control_flow R80) and of `step`, and where
`withFetchWord` leaves the next fetch; and that no instruction and no event reads or writes the inbox. -/

namespace Sys2Proof.Machine

theorem State.halted_eq_true (s : State) : s.halted = true ↔ s.fault ≠ none := by
  unfold State.halted
  cases s.fault <;> simp

theorem State.halted_eq_false (s : State) : s.halted = false ↔ s.fault = none := by
  unfold State.halted
  cases s.fault <;> simp

/-- All a `CpuStep` can do (R80). -/
theorem cpuStep_cases (s : State) :
    (s.fault ≠ none ∧ cpuStep s = .next s) ∨
    (s.fault = none ∧ s.fetch = none ∧ cpuStep s = raise (.fetchBounds s.pc) s) ∨
    (∃ w e, s.fault = none ∧ s.fetch = some w ∧ decodeWord w = .error e ∧ cpuStep s = raise (.decodeError w) s) ∨
    (∃ w i, s.fault = none ∧ s.fetch = some w ∧ decodeWord w = .ok i ∧ cpuStep s = exec i s) := by
  by_cases hf : s.fault = none
  · have hh := (s.halted_eq_false).2 hf
    cases hw : s.fetch with
    | none => exact .inr (.inl ⟨hf, rfl, by simp [cpuStep, hh, hw]⟩)
    | some w =>
      cases hd : decodeWord w with
      | error e => exact .inr (.inr (.inl ⟨w, e, hf, rfl, hd, by simp [cpuStep, hh, hw, runWord, hd]⟩))
      | ok i => exact .inr (.inr (.inr ⟨w, i, hf, rfl, hd, by simp [cpuStep, hh, hw, runWord, hd]⟩))
  · exact .inl ⟨hf, by simp [cpuStep, (s.halted_eq_true).2 hf]⟩

/-- One event alone. -/
theorem deliverAll_single (e : Event) (s : State) : deliverAll [e] s = deliver e s := by
  simp only [deliverAll]
  cases deliver e s <;> rfl

/-- A cycle is its batch and then its `CpuStep` (44_input_timers R151). -/
theorem deliverAll_cycle (events : List KeyEvent) (s : State) :
    deliverAll (HostInput.cycle events).events s =
      match inputBatch events s with
      | .next t => cpuStep t
      | .fault r => .fault r
      | .refused r => .refused r := by
  simp only [HostInput.events, deliverAll, deliver]
  cases inputBatch events s with
  | next t => cases h : cpuStep t <;> simp only [h]
  | fault r => rfl
  | refused r => rfl

/-- An empty batch empties `LAST_KEY` and changes nothing else. -/
theorem inputBatch_nil {s : State} (h : s.fault = none) : inputBatch [] s = .next { s with lastKey := none } := by
  simp [inputBatch, (s.halted_eq_false).2 h, State.applyKeyEvents]

/-- With nothing in the inbox a step is an empty batch and a `CpuStep`. -/
theorem step_of_empty {s : State} (h : s.inbox = []) (hf : s.fault = none) :
    step s = cpuStep { s with lastKey := none } := by
  have hs : step s = deliverAll (HostInput.cycle []).events s := by simp [step, nextInput, State.takeInput, h]
  rw [hs, deliverAll_cycle, inputBatch_nil hf]

/-- With an input in the inbox a step delivers its events. -/
theorem step_of_input {s : State} {u : HostInput} {rest : List HostInput} (h : s.inbox = u :: rest) :
    step s = deliverAll u.events { s with inbox := rest } := by
  simp [step, nextInput, State.takeInput, h]

/-- All a step can do: the events of one input, on the state without it. -/
theorem step_cases (s : State) :
    ∃ (u : HostInput) (rest : List HostInput), step s = deliverAll u.events { s with inbox := rest } ∧
      ((s.inbox = [] ∧ u = .cycle [] ∧ rest = []) ∨ s.inbox = u :: rest) := by
  cases h : s.inbox with
  | nil =>
    have hs : { s with inbox := [] } = s := by rw [← h]
    exact ⟨.cycle [], [], by rw [hs]; simp [step, nextInput, State.takeInput, h], .inl ⟨rfl, rfl, rfl⟩⟩
  | cons u rest => exact ⟨u, rest, step_of_input h, .inr rfl⟩

/-! ### Nothing but the step itself reads or writes the inbox -/

/-- An answer with the inbox of its next state set. -/
def withInbox (q : List HostInput) : Result → Result
  | .next t => .next { t with inbox := q }
  | .fault r => .fault r
  | .refused r => .refused r

theorem storeAtI_withInbox (bytes : List Byte) (s : State) (q : List HostInput) :
    storeAtI bytes { s with inbox := q } = withInbox q (storeAtI bytes s) := by
  cases h : inRange (s.effectiveAddress 0) bytes.length <;>
    simp_all [storeAtI, State.memWrite, State.effectiveAddress, State.advance, State.setPc, withInbox, raise]

theorem State.loadRegs_withInbox (s : State) (bytes : List Byte) (q : List HostInput) :
    State.loadRegs { s with inbox := q } bytes = { s.loadRegs bytes with inbox := q } := by
  unfold State.loadRegs
  generalize (List.finRange 16).zip bytes = ps
  induction ps generalizing s with
  | nil => rfl
  | cons p ps ih => exact ih (s.setV p.1 p.2)

/-- No instruction reads or writes the inbox. -/
theorem exec_withInbox (i : Instr) (s : State) (q : List HostInput) :
    exec i { s with inbox := q } = withInbox q (exec i s) := by
  cases i with
  | ret =>
    by_cases h : s.sp.val = 0 <;> simp [exec, execRet, State.pop, State.advance, State.setPc, h, withInbox, raise]
  | call nnn =>
    by_cases h : s.sp.val < 16 <;> simp [exec, execCall, State.push, State.advance, State.setPc, h, withInbox, raise]
  | seRV x kk | sneRV x kk | seRR x y | sneRR x y =>
    simp only [exec, execSeRV, execSneRV, execSeRR, execSneRR, State.skipIf_eq]
    rfl
  | skp x | sknp x =>
    simp only [exec, execSkp, execSknp, State.getV]
    cases keyOf s.v[x] with
    | none => rfl
    | some k =>
      simp only [State.skipIf_eq]
      rfl
  | ldRK x =>
    cases h : s.lastKey <;>
      simp [exec, execLdRK, State.advance, State.rewind, State.setPc, State.setV, h, withInbox]
  | drw x y n =>
    have hm : State.memRead { s with inbox := q } (s.effectiveAddress 0) n.val =
      s.memRead (s.effectiveAddress 0) n.val := rfl
    have he : State.effectiveAddress { s with inbox := q } 0 = s.effectiveAddress 0 := rfl
    simp only [exec, execDrw, he, hm]
    cases s.memRead (s.effectiveAddress 0) n.val <;> rfl
  | ldRRI x =>
    have hm : State.memRead { s with inbox := q } (s.effectiveAddress 0) (x.val + 1) =
      s.memRead (s.effectiveAddress 0) (x.val + 1) := rfl
    have he : State.effectiveAddress { s with inbox := q } 0 = s.effectiveAddress 0 := rfl
    simp only [exec, execLdRRI, he, hm]
    cases s.memRead (s.effectiveAddress 0) (x.val + 1) with
    | none => rfl
    | some bytes => exact congrArg Host.Outcome.next (State.loadRegs_withInbox s.advance bytes q)
  | ldBR x => exact storeAtI_withInbox _ s q
  | ldIRR x => exact storeAtI_withInbox _ s q
  | _ => rfl

theorem State.applyKeyEvents_withInbox (s : State) (es : List KeyEvent) (q : List HostInput) :
    State.applyKeyEvents { s with inbox := q } es = withInbox q (State.applyKeyEvents s es) := by
  induction es generalizing s with
  | nil => rfl
  | cons e es ih =>
    simp only [State.applyKeyEvents]
    split
    · next h =>
      rw [← ih]
      cases e.kind <;> rfl
    · rfl

/-- No event reads or writes the inbox: what it does is the same whatever waits (00_scope R8). -/
theorem deliver_withInbox (e : Event) (s : State) (q : List HostInput) :
    deliver e { s with inbox := q } = withInbox q (deliver e s) := by
  cases e with
  | reset c rom t0 => cases h : c.wellFormed <;> simp [deliver, resetEvent, h, withInbox]
  | inputBatch es =>
    have hh : State.halted { s with inbox := q } = s.halted := rfl
    simp only [deliver, inputBatch, hh]
    cases s.halted
    · exact State.applyKeyEvents_withInbox { s with lastKey := none } es q
    · rfl
  | cpuStep =>
    have hh : State.halted { s with inbox := q } = s.halted := rfl
    have hf : State.fetch { s with inbox := q } = s.fetch := rfl
    simp only [deliver, cpuStep, hh, hf]
    cases s.halted
    · cases s.fetch with
      | none => rfl
      | some w =>
        simp only [runWord, Bool.false_eq_true, if_false]
        cases decodeWord w with
        | error r => rfl
        | ok i => exact exec_withInbox i s q
    · rfl
  | timerTick =>
    have hh : State.halted { s with inbox := q } = s.halted := rfl
    simp only [deliver, timerTick, hh]
    cases s.halted <;> rfl
  | gatePoll g now =>
    have hg : State.gatePollAnswer { s with inbox := q } g now = s.gatePollAnswer g now := by cases g <;> rfl
    simp only [deliver, State.gatePoll, hg]
    cases s.gatePollAnswer g now <;> cases g <;> rfl
  | renderAck =>
    have hh : State.halted { s with inbox := q } = s.halted := rfl
    simp only [deliver, renderAck, hh]
    cases s.halted <;> rfl

/-- No list of events reads or writes the inbox. -/
theorem deliverAll_withInbox (es : List Event) (s : State) (q : List HostInput) :
    deliverAll es { s with inbox := q } = withInbox q (deliverAll es s) := by
  induction es generalizing s with
  | nil => rfl
  | cons e es ih =>
    simp only [deliverAll, deliver_withInbox]
    cases deliver e s with
    | next t => exact ih t
    | fault r => rfl
    | refused r => rfl

/-- A state made ready can be fetched from. -/
theorem State.fetchReady_pc (s : State) : s.fetchReady.pc.toNat + 1 ≤ 4095 := by
  unfold State.fetchReady
  dsimp only
  split
  · decide
  · omega

/-- The word placed is the word the next step fetches. -/
theorem State.fetch_withFetchWord {s : State} (hs : s.mem.wf s.config = true) (w : Word) :
    (s.withFetchWord 16 w.toNat).fetch = some w := by
  have hw : tableWord 16 w.toNat = w := by
    apply BitVec.eq_of_toNat_eq
    simpa [tableWord] using w.isLt
  have hp := s.fetchReady_pc
  have hm : s.fetchReady.mem.wf s.fetchReady.config = true := hs
  have hb : s.fetchReady.pc.toNat + (bytesOfWord w).length ≤ memSize := by simp [memSize]; omega
  have h0 := Memory.read_writeList hm hb (k := 0) (by simp)
  have h1 := Memory.read_writeList hm hb (k := 1) (by simp)
  unfold State.withFetchWord
  rw [hw]
  rcases (s.fetchReady.placeWord w).fetch_cases with ⟨-, h⟩ | ⟨h, -⟩
  · rw [h]
    unfold State.readByte State.placeWord
    dsimp only
    rw [Nat.add_zero] at h0
    rw [h0, h1]
    simp [bytesOfWord, wordOfBytes_bytesOfWord]
  · exact absurd h (by simp only [State.placeWord]; omega)

/-- The next step after `withFetchWord` executes the instruction the word encodes, behind an empty batch. -/
theorem step_withFetchWord {s : State} (hs : s.mem.wf s.config = true) {w : Word} {i : Instr}
    (hd : decodeWord w = .ok i) :
    step (s.withFetchWord 16 w.toNat) = exec i { s.withFetchWord 16 w.toNat with lastKey := none } := by
  rw [step_of_empty rfl rfl]
  have hw : { s.withFetchWord 16 w.toNat with lastKey := none }.fetch = some w := State.fetch_withFetchWord hs w
  have hh : { s.withFetchWord 16 w.toNat with lastKey := none }.halted = false := rfl
  simp only [cpuStep, hh, hw, runWord, hd, Bool.false_eq_true, if_false]

end Sys2Proof.Machine
end

