-- ==== Sys2Proof/Tests/Slice0.lean ====
section
/-! SUPPORT. Tests, each a closed fact decided by the kernel. Expected values are those of 95_test_vectors (named in the
comments: S, V-, P) or worked out by hand from the rule named. Then the witnesses: for every obligation with hypotheses a
concrete state and operands that meet them. -/

namespace Sys2Proof.Tests

open Sys2Proof Sys2Proof.Machine

/-! ### WellFormed: a term each check refuses, and its neighbour it takes -/

theorem test_sys_cls_literal_refused : (Instr.sys 0x0E0).wellFormed = false := by decide
theorem test_sys_ret_literal_refused : (Instr.sys 0x0EE).wellFormed = false := by decide
theorem test_sys_neighbour_taken : (Instr.sys 0x0E1).wellFormed = true := by decide
theorem test_rate_zero_refused : Config.wellFormed { Config.default with cpuRate := 0 } = false := by decide
theorem test_rate_too_high_refused : Config.wellFormed { Config.default with cpuRate := 1000000001 } = false := by decide
theorem test_rate_highest_taken : Config.wellFormed { Config.default with cpuRate := 1000000000 } = true := by decide
theorem test_key_index_refused : keyIndexOk 16 = false := by decide
theorem test_key_index_taken : keyIndexOk 15 = true := by decide

/-! ### Decoding: a word of every instruction, written out nibble by nibble from 30_encoding R62 and R66 -/

theorem test_decode_sys : decodeWord 0b0000000011100001 = .ok (.sys 0x0E1) := by decide  -- V-DEC-2
theorem test_decode_cls : decodeWord 0b0000000011100000 = .ok .cls := by decide  -- S5
theorem test_decode_ret : decodeWord 0b0000000011101110 = .ok .ret := by decide  -- S6
theorem test_decode_jp : decodeWord 0b0001001000101000 = .ok (.jp 0x228) := by decide  -- S7
theorem test_decode_call : decodeWord 0b0010101010111100 = .ok (.call 0xABC) := by decide  -- V-DEC-3
theorem test_decode_seRV : decodeWord 0b0011101101011010 = .ok (.seRV 0xB 0x5A) := by decide
theorem test_decode_sneRV : decodeWord 0b0100001100010001 = .ok (.sneRV 0x3 0x11) := by decide
theorem test_decode_seRR : decodeWord 0b0101000100100000 = .ok (.seRR 0x1 0x2) := by decide  -- V-DEC-4
theorem test_decode_ldRV : decodeWord 0b0110101000000010 = .ok (.ldRV 0xA 0x02) := by decide  -- S8
theorem test_decode_addRV : decodeWord 0b0111000011111111 = .ok (.addRV 0x0 0xFF) := by decide
theorem test_decode_ldRR : decodeWord 0b1000001011110000 = .ok (.ldRR 0x2 0xF) := by decide
theorem test_decode_or : decodeWord 0b1000001011110001 = .ok (.or 0x2 0xF) := by decide
theorem test_decode_and : decodeWord 0b1000001000110010 = .ok (.and 0x2 0x3) := by decide  -- S10
theorem test_decode_xor : decodeWord 0b1000001011110011 = .ok (.xor 0x2 0xF) := by decide
theorem test_decode_addRR : decodeWord 0b1000000100000100 = .ok (.addRR 0x1 0x0) := by decide  -- P1
theorem test_decode_subRR : decodeWord 0b1000001011110101 = .ok (.subRR 0x2 0xF) := by decide
theorem test_decode_shr : decodeWord 0b1000001011110110 = .ok (.shr 0x2 0xF) := by decide
theorem test_decode_subn : decodeWord 0b1000101010110111 = .ok (.subn 0xA 0xB) := by decide  -- V-DEC-6
theorem test_decode_shl : decodeWord 0b1000101010111110 = .ok (.shl 0xA 0xB) := by decide  -- V-DEC-8
theorem test_decode_sneRR : decodeWord 0b1001000100100000 = .ok (.sneRR 0x1 0x2) := by decide
theorem test_decode_ldIV : decodeWord 0b1010001000001110 = .ok (.ldIV 0x20E) := by decide
theorem test_decode_jpRV : decodeWord 0b1011001100000001 = .ok (.jpRV 0x301) := by decide
theorem test_decode_rnd : decodeWord 0b1100001100001111 = .ok (.rnd 0x3 0x0F) := by decide
theorem test_decode_drw : decodeWord 0b1101000100101111 = .ok (.drw 0x1 0x2 0xF) := by decide  -- V-DEC-11
theorem test_decode_skp : decodeWord 0b1110000110011110 = .ok (.skp 0x1) := by decide  -- V-DEC-12
theorem test_decode_sknp : decodeWord 0b1110010010100001 = .ok (.sknp 0x4) := by decide
theorem test_decode_ldRD : decodeWord 0b1111000100000111 = .ok (.ldRD 0x1) := by decide
theorem test_decode_ldRK : decodeWord 0b1111001100001010 = .ok (.ldRK 0x3) := by decide  -- V-DEC-14
theorem test_decode_ldDR : decodeWord 0b1111010100010101 = .ok (.ldDR 0x5) := by decide
theorem test_decode_ldSR : decodeWord 0b1111010100011000 = .ok (.ldSR 0x5) := by decide
theorem test_decode_addIR : decodeWord 0b1111001000011110 = .ok (.addIR 0x2) := by decide
theorem test_decode_ldRF : decodeWord 0b1111110000101001 = .ok (.ldRF 0xC) := by decide
theorem test_decode_ldBR : decodeWord 0b1111000000110011 = .ok (.ldBR 0x0) := by decide
theorem test_decode_ldIRR : decodeWord 0b1111000101010101 = .ok (.ldIRR 0x1) := by decide
theorem test_decode_ldRRI : decodeWord 0b1111111101100101 = .ok (.ldRRI 0xF) := by decide  -- V-DEC-16

theorem test_illegal_5 : decodeWord 0x5123 = .error (.illegal 0x5123) := by decide  -- S9
theorem test_illegal_8 : decodeWord 0x8AB8 = .error (.illegal 0x8AB8) := by decide  -- V-DEC-7
theorem test_illegal_8_last : decodeWord 0x8ABF = .error (.illegal 0x8ABF) := by decide  -- V-DEC-9
theorem test_illegal_9 : decodeWord 0x9AB1 = .error (.illegal 0x9AB1) := by decide  -- V-DEC-10
theorem test_illegal_E : decodeWord 0xE19F = .error (.illegal 0xE19F) := by decide  -- V-DEC-13
theorem test_illegal_F : decodeWord 0xF300 = .error (.illegal 0xF300) := by decide  -- V-DEC-15
/-- Bytes in memory order: the first byte is the high one (20_memory R48). -/
theorem test_bytes_order : decodeBytes [0x82, 0x32, 0x77] = .ok (.and 2 3, [0x77]) := by decide  -- S10
theorem test_bytes_truncated : decodeBytes [0x82] = .error .truncated := by decide
theorem test_table_word : decodeTableWord 16 0x8232 = some (.and 2 3) := by decide

/-! ### One step on small states -/

/-- The reset state with the word at 0x200. -/
def start (w : Word) : State := State.reset.placeWord w

/-- What one step from `s` shows of its next state. -/
def after {α : Type} (s : State) (look : State → α) : Option α :=
  match step s with
  | .next t => some (look t)
  | .fault _ => none
  | .refused _ => none

/-- What one event shows of its next state. -/
def afterEvent {α : Type} (e : Event) (s : State) (look : State → α) : Option α :=
  match deliver e s with
  | .next t => some (look t)
  | .fault _ => none
  | .refused _ => none

/-- Three bytes of memory. -/
def bytes3 (a : Nat) (s : State) : List Byte := [s.readByte a, s.readByte (a + 1), s.readByte (a + 2)]

/-- `V[1]` = a, `V[2]` = b, VF = 0xAA: the start of the vectors of 95_test_vectors, part 2, for 41_alu. -/
def operands (a b : Byte) (w : Word) : State := (((start w).setV 1 a).setV 2 b).setV 15 0xAA

def v1AndFlag (s : State) : Byte × Byte := (s.getV 1, s.getV 15)

theorem test_sys : after (start 0x0000) (fun t => (t.fault, t.pc)) = some (some ⟨.unsupportedOp 0, 0x200⟩, 0x200) := by
  decide  -- V-CF-17
theorem test_jp : after { start 0x1204 with inbox := [.cycle []] } (fun t => t.pc) = some 0x204 := by decide  -- V-CF-1
theorem test_call : after (start 0x2210) (fun t => (t.stack[0], t.sp, t.pc)) = some (0x202, 1, 0x210) := by
  decide  -- V-CF-3, at 0x200
theorem test_call_full : after { start 0x2300 with sp := 16 } (fun t => (t.fault, t.pc, t.sp)) =
    some (some ⟨.stackOverflow, 0x200⟩, 0x200, 16) := by decide  -- V-CF-6
theorem test_ret : after { start 0x00EE with sp := 1, stack := State.reset.stack.set 0 0x206 } (fun t => (t.sp, t.pc)) =
    some (0, 0x206) := by decide  -- V-CF-4
theorem test_ret_empty : after (start 0x00EE) (fun t => (t.fault, t.pc)) =
    some (some ⟨.stackUnderflow, 0x200⟩, 0x200) := by decide  -- V-CF-5
theorem test_jpRV : after ((start 0xBFFF).setV 0 0xFF) (fun t => t.pc) = some 0x10FE := by decide  -- V-CF-8
theorem test_seRV : after (start 0x3000) (fun t => t.pc) = some 0x204 := by decide  -- V-CF-9
theorem test_seRV_unequal : after ((start 0x3000).setV 0 1) (fun t => t.pc) = some 0x202 := by decide  -- V-CF-10
theorem test_sneRV : after ((start 0x4311).setV 3 0x10) (fun t => t.pc) = some 0x204 := by decide  -- V-CF-11
theorem test_sneRV_equal : after ((start 0x4310).setV 3 0x10) (fun t => t.pc) = some 0x202 := by decide  -- V-CF-12
theorem test_seRR : after (operands 7 7 0x5120) (fun t => t.pc) = some 0x204 := by decide  -- V-CF-13
theorem test_seRR_unequal : after (operands 7 8 0x5120) (fun t => t.pc) = some 0x202 := by decide  -- V-CF-14
theorem test_sneRR : after (operands 7 8 0x9120) (fun t => t.pc) = some 0x204 := by decide  -- V-CF-15
theorem test_sneRR_same : after (start 0x9110) (fun t => t.pc) = some 0x202 := by decide  -- V-CF-16

theorem test_fetch_last : after ({ State.reset with pc := 0xFFE }.placeWord 0x6007) (fun t => (t.getV 0, t.pc)) =
    some (7, 0x1000) := by decide  -- V-CF-18
theorem test_fetch_bounds : after { State.reset with pc := 0xFFF } (fun t => t) =
    some { State.reset with pc := 0xFFF, fault := some ⟨.fetchBounds 0xFFF, 0xFFF⟩ } := by decide  -- V-CF-19
theorem test_fetch_odd : after ({ State.reset with pc := 0x201 }.placeWord 0x6A02) (fun t => (t.getV 10, t.pc)) =
    some (2, 0x203) := by decide  -- V-CF-20
theorem test_decode_error : after (start 0x5123) (fun t => t.fault) = some (some ⟨.decodeError 0x5123, 0x200⟩) := by
  decide  -- S9

theorem test_ldRV : after (start 0x6A02) (fun t => (t.getV 10, t.pc)) = some (2, 0x202) := by decide  -- V-ALU-30
theorem test_addRV : after (((start 0x7002).setV 0 0xFF).setV 15 0xAA) (fun t => (t.getV 0, t.getV 15)) =
    some (1, 0xAA) := by decide  -- V-ALU-29
theorem test_ldRR : after (operands 1 9 0x8120) v1AndFlag = some (9, 0xAA) := by decide  -- V-ALU-16
theorem test_or : after (operands 0xF0 0x0F 0x8121) v1AndFlag = some (0xFF, 0xAA) := by decide  -- V-ALU-14
theorem test_and : after (((start 0x8232).setV 2 0xFF).setV 3 0x0F) (fun t => (t.getV 2, t.getV 3, t.pc)) =
    some (0x0F, 0x0F, 0x202) := by decide  -- S10
theorem test_xor : after (operands 0xFF 0x0F 0x8123) v1AndFlag = some (0xF0, 0xAA) := by decide  -- V-ALU-15
theorem test_addRR : after (operands 0xFF 0x01 0x8124) v1AndFlag = some (0, 1) := by decide  -- V-ALU-1
theorem test_addRR_to_flag : after (((start 0x8F14).setV 15 0xFF).setV 1 2) (fun t => t.getV 15) = some 1 := by
  decide  -- V-ALU-17
theorem test_subRR : after (operands 0 0xFF 0x8125) v1AndFlag = some (1, 0) := by decide  -- V-ALU-6
theorem test_subRR_equal : after (operands 5 5 0x8125) v1AndFlag = some (0, 1) := by decide  -- V-ALU-4
theorem test_subn : after (operands 5 6 0x8127) v1AndFlag = some (1, 1) := by decide  -- V-ALU-7
theorem test_subn_borrow : after (operands 6 5 0x8127) v1AndFlag = some (0xFF, 0) := by decide  -- V-ALU-8
theorem test_shr : after (operands 0x81 0x33 0x8126) v1AndFlag = some (0x40, 1) := by decide  -- V-ALU-10
theorem test_shr_flag : after ((start 0x8F16).setV 15 3) (fun t => t.getV 15) = some 0 := by decide  -- V-ALU-22
theorem test_shl : after (operands 0x81 0x33 0x812E) v1AndFlag = some (0x02, 1) := by decide  -- V-ALU-12
theorem test_shl_flag : after ((start 0x8F1E).setV 15 0x81) (fun t => t.getV 15) = some 2 := by decide  -- V-ALU-23
theorem test_rnd : after { start 0xC30F with draws := [0xB7] } (fun t => (t.getV 3, t.draws)) = some (7, []) := by
  decide  -- V-ALU-31

theorem test_ldIV : after (start 0xA300) (fun t => t.i) = some 0x300 := by decide  -- V-MEM-1
theorem test_addIR : after (((start 0xF21E).setI 0xFFFF).setV 2 2) (fun t => t.i) = some 1 := by decide  -- V-MEM-4
theorem test_ldRF : after ((start 0xF029).setV 0 0xFF) (fun t => t.i) = some 0x4FB := by decide  -- V-MEM-8
theorem test_ldRF_masked : after { (start 0xF029).setV 0 0xFF with
    config := { Config.default with fontIndexMask := .lowNibble } } (fun t => t.i) = some 0x4B := by decide  -- V-MEM-9
theorem test_ldBR : after (((start 0xF033).setI 0x300).setV 0 254) (fun t => (bytes3 0x300 t, t.i)) =
    some ([2, 5, 4], 0x300) := by decide  -- V-MEM-10
theorem test_ldBR_bounds : after ((start 0xF033).setI 0xFFE) (fun t => (t.fault, t.pc, t.mem)) =
    some (some ⟨.memBounds 0xFFE 3, 0x200⟩, 0x200, (start 0xF033).mem) := by decide  -- V-MEM-12
theorem test_ldIRR : after ((((start 0xF155).setI 0x208).setV 0 0x12).setV 1 8 |>.setV 2 0x77) (bytes3 0x208) =
    some [0x12, 8, 0] := by decide  -- V-MEM-15
theorem test_ldIRR_bounds : after (((start 0xFF55).setI 0xFF1).setV 0 9) (fun t => (t.fault, t.readByte 0xFF1)) =
    some (some ⟨.memBounds 0xFF1 16, 0x200⟩, 0) := by decide  -- V-MEM-14
theorem test_ldRRI : after (start 0xF465) (fun t => (t.getV 0, t.getV 1, t.getV 4, t.i)) =
    some (0xF0, 0x90, 0xF0, 0) := by decide  -- V-MEM-17
theorem test_ldRRI_bounds : after ((start 0xF165).setI 0xFFF) (fun t => t.fault) =
    some (some ⟨.memBounds 0xFFF 2, 0x200⟩) := by decide  -- V-MEM-18

/-- `DIRTY`, VF and the pixels named. -/
def screen (ps : List (Nat × Nat)) (t : State) : Bool × Byte × List Bool :=
  (t.dirty, t.getV 15, ps.map fun p => t.fb.pixel p.1 p.2)

/-- The state of V-DRW-1, the word at 0x200. -/
def corner : State := (({ start 0xD012 with mem := [(0x200, 0xD0), (0x201, 0x12), (0x20E, 0xC0), (0x20F, 0xC0)] }.setI
  0x20E).setV 0 63).setV 1 31

theorem test_drw_wraps : after corner (screen [(63, 31), (0, 31), (63, 0), (0, 0), (1, 0), (62, 31)]) =
    some (true, 0, [true, true, true, true, false, false]) := by decide  -- V-DRW-1
theorem test_drw_flag_register : after ((({ start 0xDF11 with mem := [(0x200, 0xDF), (0x201, 0x11), (0x20E, 0x80)] }.setI
    0x20E).setV 15 5)) (screen [(5, 0), (0, 0)]) = some (true, 0, [true, false]) := by decide  -- V-DRW-10
theorem test_cls : after { start 0x00E0 with fb := State.reset.fb.flip 3 4 } (screen [(3, 4)]) =
    some (true, 0, [false]) := by decide  -- V-CLS-1

theorem test_skp : after { (start 0xE49E).setV 4 7 with keys := State.reset.keys.set 7 true } (fun t => t.pc) =
    some 0x204 := by decide  -- V-KEY-3
theorem test_skp_bad_key : after ((start 0xE49E).setV 4 0x10) (fun t => t.fault) =
    some (some ⟨.keyIndex 0x10, 0x200⟩) := by decide  -- V-KEY-7
theorem test_sknp : after ((start 0xE4A1).setV 4 7) (fun t => t.pc) = some 0x204 := by decide  -- V-KEY-5
theorem test_sknp_down : after { (start 0xE4A1).setV 4 7 with keys := State.reset.keys.set 7 true } (fun t => t.pc) =
    some 0x202 := by decide  -- V-KEY-6
/-- A held key does not end the wait, and neither does the press of an earlier batch: V-KEY-8, 70_reset_and_hazards R213. -/
theorem test_ldRK_waits : after { start 0xF00A with lastKey := some 7, keys := State.reset.keys.set 7 true } (fun t => t) =
    some { start 0xF00A with keys := State.reset.keys.set 7 true } := by decide
theorem test_ldRK : after { start 0xF00A with inbox := [.cycle [⟨.press, 7⟩]] } (fun t => (t.getV 0, t.pc)) =
    some (7, 0x202) := by decide  -- V-KEY-9, the press in the batch
theorem test_ldRD : after { start 0xF107 with dt := 7 } (fun t => t.getV 1) = some 7 := by decide  -- V-TMR-2
theorem test_ldDR : after ((start 0xF015).setV 0 7) (fun t => t.dt) = some 7 := by decide  -- V-TMR-1
theorem test_ldSR : after ((start 0xF518).setV 5 3) (fun t => (t.st, t.tone)) = some (3, true) := by decide  -- V-TMR-3

/-! ### The other events -/

theorem test_tick : afterEvent .timerTick { State.reset with dt := 2, st := 1 } (fun t => (t.dt, t.st, t.tone)) =
    some (1, 0, false) := by decide  -- V-TMR-4
theorem test_tick_at_zero : afterEvent .timerTick State.reset (fun t => (t.dt, t.st)) = some (0, 0) := by decide  -- V-TMR-5
theorem test_batch : afterEvent (.inputBatch [⟨.press, 3⟩, ⟨.press, 7⟩, ⟨.release, 3⟩]) State.reset
    (fun t => (t.isPressed 7, t.isPressed 3, t.lastKey)) = some (true, false, some 7) := by decide  -- V-KEY-1
theorem test_batch_empty : afterEvent (.inputBatch [])
    { State.reset with lastKey := some 7, keys := State.reset.keys.set 7 true } (fun t => (t.isPressed 7, t.lastKey)) = some (true, none) := by decide  -- V-KEY-2
theorem test_ack : afterEvent .renderAck { State.reset with dirty := true } (fun t => t) = some State.reset := by
  decide  -- V-ACK-1
theorem test_gate_early : State.reset.gatePollAnswer .timer 16666665 = false := by decide  -- V-GATE-1
theorem test_gate_fires : afterEvent (.gatePoll .timer 16666666) State.reset (fun t => t.timerGate) =
    some ⟨16666666, 16666666⟩ := by decide  -- V-GATE-2
theorem test_gate_delay : (⟨16666666, 16666666⟩ : Gate).delayUntil 20000000 = 13333332 := by decide  -- V-GATE-4
theorem test_smallest_delay : smallestDelay [State.reset.cpuGate, State.reset.timerGate] 1500000 = some 500000 := by
  decide  -- V-GATE-5, S13
theorem test_gate_clock_back : Gate.due ⟨16666666, 16666666⟩ 10000000 = false := by decide  -- V-GATE-6
theorem test_reset_event : afterEvent (.reset Config.default [0x82, 0x32] 5)
    { State.reset with fault := some ⟨.stackUnderflow, 0x200⟩, sp := 3 } (fun t => (t.fault, t.sp, t.mem, t.pc)) = some (none, 0, [(0x200, 0x82), (0x201, 0x32)], 0x200) := by
  decide  -- 70_reset_and_hazards R200
theorem test_fetch_word_runs : after ({ State.reset with pc := 0x10FE, fault := some ⟨.stackOverflow, 0⟩ }.withFetchWord 16
    0x6A02) (fun t => (t.getV 10, t.pc)) = some (2, 0x202) := by decide

/-! ### Witnesses: concrete states and operands that meet the hypotheses of the obligations -/

/-- The answer is the next state `t`, as a Bool the kernel can evaluate. -/
def follows (r : Result) (t : State) : Bool :=
  match r with
  | .next u => decide (u = t)
  | .fault _ => false
  | .refused _ => false

theorem of_follows {r : Result} {t : State} (h : follows r t = true) : r = .next t := by
  cases r with
  | next u => exact congrArg _ (of_decide_eq_true h)
  | fault f => cases h
  | refused f => cases h

/-- `s` with a fault latched. -/
def halt (s : State) : State := { s with fault := some ⟨.stackUnderflow, 0x200⟩ }

/-- An `Inv` state that is not the reset state: one return address on the stack, `PC` where CALL reaches its largest. -/
def deep : State := { (State.reset.setPc 0xFFE).placeWord 0x2ABC with sp := 1, stack := State.reset.stack.set 0 0x1000 }

theorem witness_DecodeOfEncodeIsTheInstruction :
    (Instr.sys 0xFFF).wellFormed = true ∧ (Instr.drw 15 0 15).wellFormed = true := by decide
theorem witness_EncodeOfDecodeIsTheWord : decodeWord 0x8ABE = .ok (.shl 0xA 0xB) := by decide
theorem witness_DecoderFollowsTheOpcodeMap :
    (⟨"SYS", 0x0000, 0xF000⟩ : OpcodeRow) ∈ opcodeMap ∧ (⟨"LD_RRI", 0xF065, 0xF0FF⟩ : OpcodeRow) ∈ opcodeMap := by decide
theorem witness_IllegalWordsAreExactlyTheListed :
    illegalWord 0x5001 = true ∧ illegalWord 0xFFFF = true ∧ illegalWord 0x5000 = false ∧ illegalWord 0x0000 = false := by
  decide
theorem witness_StepRunsTheDecodedInstruction :
    deep.fault = none ∧ deep.pc.toNat + 1 = 4095 ∧ decodeWord deep.wordAtPc = .ok (.call 0xABC) ∧ deep.inbox = [] ∧
    { deep with inbox := [.cycle [⟨.press, 3⟩]] }.inbox = [.cycle [⟨.press, 3⟩]] ∧
    inputBatch [⟨.press, 3⟩] deep = .next { deep with keys := deep.keys.set 3 true, lastKey := some 3 } :=
  ⟨by decide, by decide, by decide, by decide, by decide, of_follows (by decide)⟩
theorem witness_FetchReadsTwoBytesHighFirst :
    4095 < (State.reset.setPc 0xFFF).pc.toNat + 1 ∧ (State.reset.setPc 0xFFF).fault = none ∧
    (State.reset.setPc 0xFFE).pc.toNat + 1 ≤ 4095 := by decide
theorem witness_HaltedCoreChangesOnlyByReset :
    (halt State.reset).fault ≠ none ∧ Config.wellFormed { Config.default with cpuRate := 1 } = true ∧
    ∀ c rom t0, Event.timerTick ≠ .reset c rom t0 := ⟨by decide, by decide, fun _ _ _ h => nomatch h⟩
theorem witness_FaultsArePrecise :
    State.reset.fault = none ∧
    cpuStep State.reset = .next { State.reset with fault := some ⟨.unsupportedOp 0, 0x200⟩ } ∧
    { State.reset with fault := some ⟨.unsupportedOp 0, 0x200⟩ }.fault ≠ none :=
  ⟨by decide, of_follows (by decide), by decide⟩
theorem witness_StepFaultsExactlyAsTabled :
    stepRaises State.reset = some (.unsupportedOp 0) ∧ stepRaises (State.reset.setPc 0xFFF) = some (.fetchBounds 0xFFF) ∧
    stepRaises (start 0x5123) = some (.decodeError 0x5123) ∧ stepRaises deep = none := by decide
theorem witness_EveryInstructionAnswersANextState :
    raisedBy (.ldRRI 1) (State.reset.setI 0xFFF) = some (.memBounds 0xFFF 2) ∧
    raisedBy (.ldRRI 0) (State.reset.setI 0xFFF) = none := by decide
theorem witness_ListedInstructionsNeverFault :
    neverFaults (.drw 0 0 0) = true ∧ neverFaults (.jpRV 0xFFF) = true ∧ neverFaults .cls = true := by decide
theorem witness_SysAlwaysRaisesUnsupportedOp :
    (0x0FFF : Word).toNat < 4096 ∧ (0x0FFF : Word) ≠ 0x00E0 ∧ (0x0FFF : Word) ≠ 0x00EE := by decide
theorem witness_CallPushesTheReturnAddress :
    { State.reset with sp := 16 }.sp.val = 16 ∧ { State.reset with sp := 15 }.sp.val ≠ 16 := by decide
theorem witness_RetPopsTheReturnAddress :
    State.reset.sp.val = 0 ∧ { State.reset with sp := 16 }.sp.val = (15 : Fin 16).val + 1 ∧
    { State.reset with sp := 1 }.sp.val = (0 : Fin 16).val + 1 := by decide
theorem witness_RetUndoesCall : { State.reset with sp := 15 }.sp.val ≠ 16 := by decide
theorem witness_JumpWithOffsetIsNotChecked :
    State.reset.fault = none ∧ exec (.jpRV 0xFFF) State.reset = .next (State.reset.setPc 0xFFF) ∧
    0xFFF ≤ (State.reset.setPc 0xFFF).pc.toNat := ⟨by decide, of_follows (by decide), by decide⟩
theorem witness_JumpGoesToItsTarget : (0x200 : Addr12).toNat = State.reset.pc.toNat := by decide
theorem witness_SelfJumpEndsTheRun :
    (start 0x1200).fault = none ∧ (start 0x1200).inbox = [] ∧ (start 0x1200).atSelfJump = true := by decide
theorem witness_AddRegistersSetsCarry : (14 : Reg) ≠ 15 ∧ (0 : Reg) ≠ 14 ∧ (0 : Reg) ≠ 15 := by decide
theorem witness_SubtractionsSetNoBorrow : (0 : Reg) ≠ 15 ∧ (14 : Reg) ≠ 0 ∧ (14 : Reg) ≠ 15 := by decide
theorem witness_ShiftsSetTheBitShiftedOut : (14 : Reg) ≠ 15 ∧ (15 : Reg) = 15 ∧ (0 : Reg) ≠ 14 ∧ (0 : Reg) ≠ 15 := by
  decide
theorem witness_SameRegisterAsBothOperands : (14 : Reg) ≠ 15 := by decide
theorem witness_LogicIsBitwise : (7 : Nat) < 8 := by decide
theorem witness_RandomIsTheMaskedDraw :
    { State.reset with draws := [0xB7] }.draws = [0xB7] ∧ State.reset.draws = [] ∧ (0 : Reg) ≠ 15 := by decide
theorem witness_AddressRegisterWrites :
    State.reset.config.fontIndexMask = .whole ∧
    { State.reset with config := { Config.default with fontIndexMask := .lowNibble } }.config.fontIndexMask = .lowNibble := by
  decide
theorem witness_BcdStoresThreeDigits :
    (start 0xF033).mem.wf (start 0xF033).config = true ∧
    4095 < ((start 0xF033).setI 0xFFE).i.toNat + 2 ∧ ((start 0xF033).setI 0xFFD).i.toNat + 2 ≤ 4095 := by decide
theorem witness_RangeStoreWritesRegisters :
    (start 0xFF55).mem.wf (start 0xFF55).config = true ∧
    4095 < ((start 0xFF55).setI 0xFF1).i.toNat + (15 : Reg).val ∧
    ((start 0xFF55).setI 0xFF0).i.toNat + (15 : Reg).val ≤ 4095 := by decide
theorem witness_RangeLoadReadsRegisters :
    4095 < ((start 0xF165).setI 0xFFF).i.toNat + (1 : Reg).val ∧
    ((start 0xF065).setI 0xFFF).i.toNat + (0 : Reg).val ≤ 4095 := by decide
theorem witness_RangeLoadUndoesRangeStore :
    ((start 0xFF55).setI 0xFF0).mem.wf ((start 0xFF55).setI 0xFF0).config = true ∧
    ((start 0xFF55).setI 0xFF0).i.toNat + (15 : Reg).val ≤ 4095 := by decide
theorem witness_NextFetchSeesTheStore :
    ((start 0xF155).setI 0x202).mem.wf ((start 0xF155).setI 0x202).config = true ∧ 1 ≤ (1 : Reg).val ∧
    ((start 0xF155).setI 0x202).i.toNat = ((start 0xF155).setI 0x202).pc.toNat + 2 ∧
    ((start 0xF155).setI 0x202).i.toNat + (1 : Reg).val ≤ 4095 := by decide
theorem witness_DrawSpriteIsAPixelwiseXor : (List.replicate 15 (0xFF : Byte)).length ≤ 15 := by decide
theorem witness_DrawTwiceRestoresTheBuffer : ([] : List Byte).length ≤ 15 := by decide
theorem witness_DrwDrawsTheSpriteAtI_bounds :
    (1 ≤ (2 : Nibble).val ∧ 4095 < (State.reset.setI 0xFFF).i.toNat + (2 : Nibble).val - 1) ∧
    (State.reset.setI 0xFFF).i.toNat + (1 : Nibble).val - 1 ≤ 4095 ∧ (0 : Nibble).val = 0 ∧
    [0x80] = (List.range (1 : Nibble).val).map fun k =>
      (({ State.reset with mem := [(0xFFF, 0x80)] }.setI 0xFFF).readByte
        (({ State.reset with mem := [(0xFFF, 0x80)] }.setI 0xFFF).effectiveAddress k)) := by decide
/-- The one pixel of the sprite 0x80 drawn at (63, 31) is on: the clause of a collision. -/
theorem witness_DrwDrawsTheSpriteAtI_collision :
    ∃ cx cy, SpriteCovers 63 31 [0x80] cx cy ∧ (State.reset.fb.flip 63 31).pixel cx cy = true :=
  ⟨63, 31, ⟨0, 0, by decide, by decide⟩, by decide⟩
/-- Nothing is on: the clause without a collision. -/
theorem witness_DrwDrawsTheSpriteAtI_no_collision :
    ∀ cx cy, SpriteCovers 63 31 [0x80] cx cy → State.reset.fb.pixel cx cy = false :=
  fun cx cy _ => FrameBuffer.pixel_blank cx cy
theorem witness_KeySkipsTestTheHeldKey :
    ((start 0xE49E).setV 4 15 |>.getV 4).toNat = (15 : Nibble).val ∧ 15 < ((start 0xE49E).setV 4 16 |>.getV 4).toNat := by
  decide
theorem witness_KeyWaitRetriesOrStores :
    State.reset.lastKey = none ∧ { State.reset with lastKey := some 15 }.lastKey = some 15 := by decide
theorem witness_KeyWaitNeedsAPressInTheLatestBatch :
    { State.reset with lastKey := some 7 }.fault = none ∧
    ∀ e ∈ [(⟨.release, 15⟩ : KeyEvent), ⟨.release, 0⟩], e.key < 16 ∧ e.kind = .release := by decide
theorem witness_InputBatchUpdatesTheLatch :
    State.reset.fault = none ∧ (∀ e ∈ [(⟨.press, 15⟩ : KeyEvent)], e.key < 16) ∧
    ∃ e ∈ [(⟨.press, 15⟩ : KeyEvent), ⟨.release, 16⟩], 16 ≤ e.key := by decide
theorem witness_TickAndAckChangeOnlyTheirOwn : { State.reset with dt := 255, st := 1 }.fault = none := by decide
theorem witness_DelayTimerRisesOnlyByLoad :
    deliver .cpuStep ((start 0xF015).setV 0 1) = .next { (start 0xF015).setV 0 1 with dt := 1, pc := 0x202 } ∧
    (∀ c rom t0, Event.cpuStep ≠ .reset c rom t0) ∧
    ((start 0xF015).setV 0 1).dt.toNat < { (start 0xF015).setV 0 1 with dt := 1, pc := 0x202 }.dt.toNat :=
  ⟨of_follows (by decide), (fun _ _ _ h => nomatch h), by decide⟩
theorem witness_GateFiresOncePerInterval :
    State.reset.gatePollAnswer .cpu 1999999 = false ∧ State.reset.gatePollAnswer .cpu 2000000 = true ∧
    (3999999 : Nat) < 2000000 + (State.reset.gate .cpu).interval := by decide
theorem witness_DelaysAreTheTimeLeft :
    State.reset.fault = none ∧ (5 : Nat) < (⟨10, 6⟩ : Gate).lastFire ∧ [State.reset.cpuGate] ≠ [] := by decide
/-- Both gates fire, the step and the tick run; and an iteration in which nothing happens. -/
theorem witness_HostIterationDeliversTheEvents :
    (∃ w, deliverAll (iterationEvents 20000000 20000000 [⟨.press, 3⟩] (start 0x00E0)) (start 0x00E0) = .next w) ∧
    State.reset.gatePollAnswer .cpu 1999999 = false ∧ State.reset.gatePollAnswer .timer 16666665 = false ∧
    State.reset.dirty = false := ⟨⟨_, rfl⟩, by decide⟩
theorem witness_ResetSetsEverything :
    Config.wellFormed { Config.default with cpuRate := 0 } = false ∧
    Config.wellFormed { Config.default with cpuRate := 1000000000 } = true ∧
    3583 < (List.replicate 4000 (0 : Byte)).length ∧ (3583 : Nat) < 3584 ∧
    (80 ≤ 80 ∧ 80 < 0x200) ∧ (80 ≤ 0x200 ∧ 0x200 + min ([] : List Byte).length 3584 ≤ 0x200) := by
  refine ⟨by decide, by decide, ?_, by decide, by decide, by decide⟩
  rw [List.length_replicate]
  decide
theorem witness_OnlyListedRegistersChange :
    exec (.ldRRI 4) State.reset = .next (State.reset.advance.loadRegs [0xF0, 0x90, 0x90, 0x90, 0xF0]) ∧
    mayWriteReg (.ldRRI 4) 5 = false ∧ mayWriteReg (.addRR 0 1) 1 = false :=
  ⟨of_follows (by decide), by decide, by decide⟩
theorem witness_OnlyStoresChangeMemory :
    exec (.ldRV 0 1) State.reset = .next (State.reset.advance.setV 0 1) ∧
    State.reset.effectiveAddress (storedLength (.ldRV 0 1)) ≤ 0 ∧
    (State.reset.setI 0x300).effectiveAddress (storedLength (.ldBR 0)) ≤ 0x303 :=
  ⟨of_follows (by decide), by decide, by decide⟩
theorem witness_OnlyListedSpecialStateChanges :
    exec (.ldRV 0 1) State.reset = .next (State.reset.advance.setV 0 1) ∧ writesI (.ldRV 0 1) = false ∧
    raisedBy (.ldRV 0 1) State.reset = none ∧ Instr.ldRV 0 1 ≠ .ret ∧ Instr.ldRV 0 1 ≠ .cls :=
  ⟨of_follows (by decide), by decide, by decide, by decide, by decide⟩
theorem witness_StepKeepsTheInvariant :
    deep.Inv ∧ step deep =
      .next { deep with pc := 0xABC, sp := 2, stack := (State.reset.stack.set 0 0x1000).set 1 0x1000 } ∧
    deliver .timerTick deep = .next deep :=
  ⟨⟨by decide, by decide, by decide, by decide, by decide, by decide⟩, of_follows (by decide), of_follows (by decide)⟩
theorem witness_ReachableStatesHaveTheInvariant :
    Reachable { resetState Config.default [0x22] 7 with inbox := [.timerTick, .cycle []], draws := [1], drawIndex := 2 } :=
  .reset Config.default [0x22] 7 [.timerTick, .cycle []] [1] 2 (by decide)
theorem witness_EveryCpuStepFollowsItsBatch :
    State.reset.inbox = [] ∧
    { State.reset with inbox := [.timerTick, .cycle [⟨.press, 3⟩]] }.inbox = .timerTick :: [.cycle [⟨.press, 3⟩]] ∧
    legalSchedule [.inputBatch [], .cpuStep, .timerTick] = true ∧ legalSchedule [.cpuStep] = false ∧
    HostInput.timerTick.scheduled = true := by decide
/-- Two LD_RK in a row, at the last two words of memory, and a press for the first of them alone. -/
def twoWaits : State := { State.reset with pc := 0xFFC, mem := [(0xFFC, 0xF0), (0xFFD, 0x0A), (0xFFE, 0xF1), (0xFFF, 0x0A)] }
theorem witness_OnePressServesOneKeyWait :
    twoWaits.fault = none ∧ twoWaits.pc.toNat + 3 = 4095 ∧ decodeWord twoWaits.wordAtPc = .ok (.ldRK 0) ∧
    decodeWord (twoWaits.setPc (twoWaits.pc + 2)).wordAtPc = .ok (.ldRK 1) ∧ twoWaits.inbox = [] ∧
    { twoWaits with inbox := [.cycle [⟨.press, (15 : Nibble).val⟩], .cycle [⟨.release, 15⟩]] }.inbox =
      [.cycle [⟨.press, (15 : Nibble).val⟩], .cycle [⟨.release, 15⟩]] ∧
    ∀ e ∈ [(⟨.release, 15⟩ : KeyEvent)], e.key < 16 ∧ e.kind = .release := by decide

end Sys2Proof.Tests
end

section
/-! PROOF. The frames of all instructions and the invariant (10_state). What an instruction can do is said once, in
`raisesOrCompletes`; the frames and the invariant are then read off the rows of `Completes`. -/

namespace Sys2Proof.Machine

variable {i : Instr} {s t : State}

/-! ### What an instruction can do -/

/-- What an instruction does in a step that raises nothing, row by row of who may write what (10_state R11, R13, R18 to
R22): every field a row does not name is as in the state the step began in, and `PC` is advanced
(40_control_flow R81). -/
inductive Completes (s : State) : Instr → State → Prop
  /-- Only general registers are written, and only the ones listed for the instruction. -/
  | registers {i : Instr} (v : Vector Byte 16) (kept : ∀ r : Reg, mayWriteReg i r = false → v[r] = s.v[r]) :
      Completes s i { s.advance with v := v }
  /-- RND takes its draw. -/
  | random {x : Reg} {kk : Byte} (b : Byte) : Completes s (.rnd x kk) (s.advance.takeDraw.setV x b)
  /-- A skip, which goes on by 2 or by 4. -/
  | skip {i : Instr} (pc : Word) (target : pc = s.pc + 2 ∨ pc = s.pc + 4) : Completes s i { s with pc := pc }
  /-- LD_RK without a press is run again. -/
  | wait {x : Reg} : Completes s (.ldRK x) s.advance.rewind
  | jump {nnn : Addr12} : Completes s (.jp nnn) (s.advance.setPc (zext12 nnn))
  | jumpOffset {nnn : Addr12} : Completes s (.jpRV nnn) (s.advance.setPc (zext12 nnn + zext8 (s.getV 0)))
  | call {nnn : Addr12} (room : s.sp.val < 16) :
      Completes s (.call nnn)
        { s with pc := zext12 nnn, sp := ⟨s.sp.val + 1, by omega⟩, stack := s.stack.set s.sp.val (s.pc + 2) }
  | ret (used : s.sp.val ≠ 0) :
      Completes s .ret { s with pc := s.stack[s.sp.val - 1]'(by omega), sp := ⟨s.sp.val - 1, by omega⟩ }
  | index {i : Instr} (w : Word) (listed : writesI i = true) : Completes s i (s.advance.setI w)
  | delay {x : Reg} (b : Byte) : Completes s (.ldDR x) (s.advance.setDt b)
  | sound {x : Reg} (b : Byte) : Completes s (.ldSR x) (s.advance.setSt b)
  /-- A store from `I` up, of a length in range (20_memory R45, R51). -/
  | store {i : Instr} (bytes : List Byte) (all : bytes.length = storedLength i)
      (range : inRange (s.effectiveAddress 0) bytes.length = true) :
      Completes s i { s.advance with mem := Memory.writeList s.config s.mem (s.effectiveAddress 0) bytes }
  | clear : Completes s .cls s.advance.clear
  | draw {x y : Reg} {n : Nibble} (fb : FrameBuffer) (f : Byte) :
      Completes s (.drw x y n) ({ s.advance with fb := fb, dirty := true }.setFlag f)

/-- A write to a register listed for the instruction, as a row of `Completes`. -/
theorem Completes.setV {x : Reg} (b : Byte) (listed : ∀ r : Reg, mayWriteReg i r = false → r ≠ x) :
    Completes s i (s.advance.setV x b) :=
  .registers _ fun r hr => State.getV_setV_other s b (listed r hr)

/-- A write to a listed register and one to VF, in either order (41_alu R112). -/
theorem Completes.setV_setV {x y : Reg} (a b : Byte)
    (listed : ∀ r : Reg, mayWriteReg i r = false → r ≠ x ∧ r ≠ y) :
    Completes s i ((s.advance.setV x a).setV y b) :=
  .registers _ fun r hr =>
    (State.getV_setV_other (s.setV x a) b (listed r hr).2).trans (State.getV_setV_other s a (listed r hr).1)

/-- A skip of the model is a row of `Completes`, whichever way its condition falls. -/
theorem Completes.skipIf (c : Bool) : Completes s i (s.advance.skipIf c) := by
  cases c
  · exact .skip _ (.inl rfl)
  · exact .skip _ (.inr (pc_add_two_two s.pc))

/-- SYS raises with the word `0nnn`, whose number is `nnn` (40_control_flow R83). -/
theorem encode_sys (nnn : Addr12) : encode (.sys nnn) = BitVec.ofNat 16 nnn.toNat := by
  apply BitVec.eq_of_toNat_eq
  have hlt := nnn.isLt
  rw [show encode (.sys nnn) = packA 0x0 nnn from rfl, toNat_packA, BitVec.toNat_ofNat]
  simp
  omega

/-- The table's condition of MemBounds is that the range check fails (20_memory R45, 60_exceptions R167). -/
theorem State.inRange_eq_false_iff (s : State) (n : Nat) :
    inRange (s.effectiveAddress 0) n = false ↔ 1 ≤ n ∧ 4095 < s.i.toNat + n - 1 := by
  rw [← Bool.not_eq_true, inRange_iff]
  simp only [State.effectiveAddress, memSize]
  omega

/-- The instruction raises its cause of the table, or it completes (60_exceptions R167). -/
def RaisesOrCompletes (i : Instr) (s : State) : Prop :=
  (∃ c, raisedBy i s = some c ∧ exec i s = raise c s) ∨
    (raisedBy i s = none ∧ ∃ t, exec i s = .next t ∧ Completes s i t)

/-- A store at `I` of `n + 1` bytes (42_index_memory R124, R125). -/
theorem raisesOrCompletes_store {bytes : List Byte} {n : Nat} (meaning : exec i s = storeAtI bytes s)
    (length : bytes.length = n + 1) (all : bytes.length = storedLength i)
    (cause : raisedBy i s = if 4095 < s.i.toNat + n then some (.memBounds s.i (n + 1)) else none) :
    RaisesOrCompletes i s := by
  have hrange := s.inRange_eq_false_iff bytes.length
  rcases storeAtI_cases bytes s with ⟨hf, h⟩ | ⟨ht, h⟩
  · have := hrange.1 hf
    exact .inl ⟨_, by rw [cause, if_pos (by omega), length], meaning.trans h⟩
  · have hin : ¬ 4095 < s.i.toNat + n := fun hlt => Bool.false_ne_true ((hrange.2 (by omega)).symm.trans ht)
    exact .inr ⟨by rw [cause, if_neg hin], _, meaning.trans h, .store bytes all ht⟩

theorem raisesOrCompletes_ldRRI (x : Reg) (s : State) : RaisesOrCompletes (.ldRRI x) s := by
  have hrange := s.inRange_eq_false_iff (x.val + 1)
  rcases s.memRead_cases (s.effectiveAddress 0) (x.val + 1) with ⟨ht, h⟩ | ⟨hf, h⟩
  · have hin : ¬ 4095 < s.i.toNat + x.val := fun hlt => Bool.false_ne_true ((hrange.2 (by omega)).symm.trans ht)
    refine .inr ⟨if_neg hin, _, by simp only [exec, execLdRRI, h]; rfl, ?_⟩
    rw [State.loadRegs_frame]
    refine .registers _ fun r hr => ?_
    have hrx : ¬ r ≤ x := of_decide_eq_false hr
    exact (s.advance.getV_loadRegs _ r).trans (dif_neg (by simpa [Nat.lt_succ_iff] using hrx))
  · have := hrange.1 hf
    exact .inl ⟨_, if_pos (by omega), by simp only [exec, execLdRRI, h]⟩

theorem raisesOrCompletes_drw (x y : Reg) (n : Nibble) (s : State) : RaisesOrCompletes (.drw x y n) s := by
  have hrange := s.inRange_eq_false_iff n.val
  rcases s.memRead_cases (s.effectiveAddress 0) n.val with ⟨ht, h⟩ | ⟨hf, h⟩
  · have hin : ¬ (1 ≤ n.val ∧ 4095 < s.i.toNat + n.val - 1) := fun hout =>
      Bool.false_ne_true ((hrange.2 hout).symm.trans ht)
    exact .inr ⟨if_neg hin, _, by simp only [exec, execDrw, h]; rfl, .draw _ _⟩
  · exact .inl ⟨_, if_pos (hrange.1 hf), by simp only [exec, execDrw, h]⟩

theorem raisesOrCompletes_call (nnn : Addr12) (s : State) : RaisesOrCompletes (.call nnn) s := by
  rcases s.advance.push_cases s.advance.pc with ⟨hsp, h⟩ | ⟨hsp, h⟩
  · exact .inl ⟨_, if_pos hsp, by simp only [exec, execCall, h]⟩
  · exact .inr ⟨if_neg (Nat.ne_of_lt hsp), _, by simp only [exec, execCall, h]; rfl, .call (s := s) hsp⟩

theorem raisesOrCompletes_ret (s : State) : RaisesOrCompletes .ret s := by
  rcases s.advance.pop_cases with ⟨hsp, h⟩ | ⟨hsp, h⟩
  · exact .inl ⟨_, if_pos hsp, by simp only [exec, execRet, h]⟩
  · exact .inr ⟨if_neg hsp, _, by simp only [exec, execRet, h]; rfl, .ret (s := s) hsp⟩

/-- SKP and SKNP: the condition `skips` tells them apart (44_input_timers R152, R153). -/
theorem raisesOrCompletes_keySkip {x : Reg} {skips : Nibble → Bool}
    (meaning : exec i s = match keyOf (s.getV x) with
      | none => raise (.keyIndex (s.getV x)) s
      | some k => .next (s.advance.skipIf (skips k)))
    (cause : raisedBy i s = if 15 < (s.getV x).toNat then some (.keyIndex (s.getV x)) else none) :
    RaisesOrCompletes i s := by
  rcases keyOf_cases (s.getV x) with ⟨k, h, hk⟩ | ⟨hlt, h⟩
  · exact .inr ⟨by rw [cause, if_neg (by omega)], _, by rw [meaning, h], .skipIf _⟩
  · exact .inl ⟨_, by rw [cause, if_pos hlt], by rw [meaning, h]⟩

theorem raisesOrCompletes_ldRK (x : Reg) (s : State) : RaisesOrCompletes (.ldRK x) s := by
  cases h : s.lastKey with
  | none => exact .inr ⟨rfl, _, by simp only [exec, execLdRK, h], .wait⟩
  | some k => exact .inr ⟨rfl, _, by simp only [exec, execLdRK, h]; rfl, .setV _ (by simp [mayWriteReg])⟩

/-- Every instruction in every state raises the cause of the table or completes; said once, for every frame and every
invariant. -/
theorem raisesOrCompletes (i : Instr) (s : State) : RaisesOrCompletes i s := by
  cases i with
  | sys nnn => exact .inl ⟨_, rfl, by simp only [exec, execSys, encode_sys]⟩
  | cls => exact .inr ⟨rfl, _, rfl, .clear⟩
  | ret => exact raisesOrCompletes_ret s
  | jp nnn => exact .inr ⟨rfl, _, rfl, .jump⟩
  | call nnn => exact raisesOrCompletes_call nnn s
  | jpRV nnn => exact .inr ⟨rfl, _, rfl, .jumpOffset⟩
  | seRV x kk | sneRV x kk | seRR x y | sneRR x y => exact .inr ⟨rfl, _, rfl, .skipIf _⟩
  | ldRV x kk | addRV x kk | ldRR x y | or x y | and x y | xor x y | ldRD x =>
    exact .inr ⟨rfl, _, rfl, .setV _ (by simp [mayWriteReg])⟩
  | addRR x y | subRR x y | shr x y | subn x y | shl x y =>
    exact .inr ⟨rfl, _, rfl, .setV_setV _ _ (by simp [mayWriteReg, regVF, and_comm])⟩
  | rnd x kk => exact .inr ⟨rfl, _, rfl, .random _⟩
  | drw x y n => exact raisesOrCompletes_drw x y n s
  | skp x => exact raisesOrCompletes_keySkip rfl rfl
  | sknp x => exact raisesOrCompletes_keySkip (skips := fun k => !s.isPressed k) rfl rfl
  | ldRK x => exact raisesOrCompletes_ldRK x s
  | ldIV nnn | addIR x | ldRF x => exact .inr ⟨rfl, _, rfl, .index _ rfl⟩
  | ldDR x => exact .inr ⟨rfl, _, rfl, .delay _⟩
  | ldSR x => exact .inr ⟨rfl, _, rfl, .sound _⟩
  | ldBR x => exact raisesOrCompletes_store (n := 2) rfl rfl rfl rfl
  | ldIRR x => exact raisesOrCompletes_store rfl (by simp) (by simp [storedLength]) rfl
  | ldRRI x => exact raisesOrCompletes_ldRRI x s

/-- All an instruction can do that answers the next state `t`: the latch alone is set, or the instruction completes. -/
theorem exec_next_cases (h : exec i s = .next t) :
    (∃ c, raisedBy i s = some c ∧ t = { s with fault := some ⟨c, s.pc⟩ }) ∨
      (raisedBy i s = none ∧ Completes s i t) := by
  rcases raisesOrCompletes i s with ⟨c, hc, he⟩ | ⟨hn, u, he, hu⟩
  · exact .inl ⟨c, hc, (Host.Outcome.next.inj (he.symm.trans h)).symm⟩
  · exact .inr ⟨hn, Host.Outcome.next.inj (he.symm.trans h) ▸ hu⟩

/-! ### Which field each row of `Completes` writes -/

theorem Completes.getV_eq (h : Completes s i t) {r : Reg} (hr : mayWriteReg i r = false) : t.getV r = s.getV r := by
  cases h with
  | registers v kept => exact kept r hr
  | random b => exact State.getV_setV_other _ b (by simpa [mayWriteReg] using hr)
  | draw fb f => exact State.getV_setV_other _ f (by simpa [mayWriteReg, regVF] using hr)
  | _ => rfl

theorem Completes.i_eq (h : Completes s i t) (hi : writesI i = false) : t.i = s.i := by
  cases h with
  | index w listed => exact absurd (listed.symm.trans hi) (by simp)
  | _ => rfl

theorem Completes.stack_eq (h : Completes s i t) (hi : ∀ nnn, i ≠ .call nnn) : t.stack = s.stack := by
  cases h with
  | call room => exact absurd rfl (hi _)
  | _ => rfl

theorem Completes.sp_eq (h : Completes s i t) (hc : ∀ nnn, i ≠ .call nnn) (hr : i ≠ .ret) : t.sp = s.sp := by
  cases h with
  | call room => exact absurd rfl (hc _)
  | ret used => exact absurd rfl hr
  | _ => rfl

theorem Completes.dt_eq (h : Completes s i t) (hi : ∀ x, i ≠ .ldDR x) : t.dt = s.dt := by
  cases h with
  | delay b => exact absurd rfl (hi _)
  | _ => rfl

theorem Completes.st_eq (h : Completes s i t) (hi : ∀ x, i ≠ .ldSR x) : t.st = s.st := by
  cases h with
  | sound b => exact absurd rfl (hi _)
  | _ => rfl

theorem Completes.screen_eq (h : Completes s i t) (hc : i ≠ .cls) (hd : ∀ x y n, i ≠ .drw x y n) :
    t.fb = s.fb ∧ t.dirty = s.dirty := by
  cases h with
  | clear => exact absurd rfl hc
  | draw fb f => exact absurd rfl (hd _ _ _)
  | _ => exact ⟨rfl, rfl⟩

theorem Completes.draws_eq (h : Completes s i t) (hi : ∀ x kk, i ≠ .rnd x kk) :
    t.draws = s.draws ∧ t.drawIndex = s.drawIndex := by
  cases h with
  | random b => exact absurd rfl (hi _ _)
  | _ => exact ⟨rfl, rfl⟩

theorem Completes.fault_eq (h : Completes s i t) : t.fault = s.fault := by cases h <;> rfl

/-- What no instruction writes: the key latch, the gates, the parameters and the inbox. -/
theorem Completes.unwritten_eq (h : Completes s i t) :
    t.keys = s.keys ∧ t.lastKey = s.lastKey ∧ t.cpuGate = s.cpuGate ∧ t.timerGate = s.timerGate ∧
      t.config = s.config ∧ t.inbox = s.inbox := by
  cases h <;> exact ⟨rfl, rfl, rfl, rfl, rfl, rfl⟩

/-! ### The frames of all instructions -/

/-- Settles O50: an instruction that raises writes no register, and the rows of `Completes` write only listed ones. -/
theorem onlyListedRegistersChange : Obligations.OnlyListedRegistersChange := by
  intro i s t h r hr
  obtain ⟨c, -, rfl⟩ | ⟨-, hc⟩ := exec_next_cases h
  · rfl
  · exact hc.getV_eq hr

/-- Settles O52: an instruction that raises writes the latch alone, and each field is written by its own rows of
`Completes`. -/
theorem onlyListedSpecialStateChanges : Obligations.OnlyListedSpecialStateChanges := by
  intro i s t h
  obtain ⟨c, hc, rfl⟩ | ⟨-, hc⟩ := exec_next_cases h
  · have hfault : raisedBy i s = none → some ⟨c, s.pc⟩ = s.fault := fun hn => by simp [hc] at hn
    exact ⟨fun _ => rfl, fun _ => rfl, fun _ _ => rfl, fun _ => rfl, fun _ => rfl, fun _ _ => ⟨rfl, rfl⟩,
      fun _ => ⟨rfl, rfl⟩, hfault, rfl, rfl, rfl, rfl, rfl, rfl⟩
  · exact ⟨hc.i_eq, hc.stack_eq, hc.sp_eq, hc.dt_eq, hc.st_eq, hc.screen_eq, hc.draws_eq, fun _ => hc.fault_eq,
      hc.unwritten_eq⟩

/-! ### The invariant (10_state R17, R29) -/

/-- The one row that writes memory is a store in range. -/
theorem Completes.mem_wf (h : Completes s i t) (hm : s.mem.wf s.config = true) : t.mem.wf t.config = true := by
  cases h with
  | store bytes all range =>
    exact State.memWrite_wf (s := s.advance) hm (if_pos range)
  | _ => exact hm

/-- `PC` after a fetched instruction: on by 2 or 4, back to itself, a literal and a byte, or a return address. -/
theorem Completes.pc_le (h : Completes s i t) (hs : s.Inv) (hf : s.pc.toNat + 1 ≤ 4095) : t.pc.toNat ≤ 0x10FE := by
  have hadvance : (s.pc + 2).toNat ≤ 0x10FE := (pc_add_two hf).trans_le (by omega)
  cases h with
  | skip pc target =>
    obtain rfl | rfl := target
    · exact hadvance
    · simp [BitVec.toNat_add]
      omega
  | wait => simpa using hs.pcBound
  | @jump nnn | @call nnn room =>
    have := nnn.isLt
    simp
    omega
  | @jumpOffset nnn =>
    have := nnn.isLt
    have := (s.getV 0).isLt
    simp [BitVec.toNat_add]
    omega
  | ret used =>
    have := hs.returnAddresses ⟨s.sp.val - 1, by omega⟩ (by simp; omega)
    exact le_trans this.2 (by decide)
  | _ => exact hadvance

/-- CALL pushes the address after its own, and RET leaves the entries below the one it pops. -/
theorem Completes.returnAddresses (h : Completes s i t) (hs : s.Inv) (hf : s.pc.toNat + 1 ≤ 4095) (k : Fin 16)
    (hk : k.val < t.sp.val) : 2 ≤ (t.stack[k]).toNat ∧ (t.stack[k]).toNat ≤ 0x1000 := by
  cases h with
  | call room =>
    by_cases hkt : k.val = s.sp.val
    · simp [hkt, pc_add_two hf]
      omega
    · have hbelow : k.val < s.sp.val := by simp at hk; omega
      simpa [Vector.getElem_set_ne, Ne.symm hkt] using hs.returnAddresses k hbelow
  | ret used => exact hs.returnAddresses k (by simp at hk; omega)
  | _ => exact hs.returnAddresses k hk

/-- A fetched instruction that completes keeps the invariant. -/
theorem Completes.inv (h : Completes s i t) (hs : s.Inv) (hf : s.pc.toNat + 1 ≤ 4095) : t.Inv := by
  obtain ⟨-, -, hcpu, htimer, hconfig, -⟩ := h.unwritten_eq
  exact {
    memCanonical := h.mem_wf hs.memCanonical
    pcBound := h.pc_le hs hf
    returnAddresses := h.returnAddresses hs hf
    configLegal := hconfig ▸ hs.configLegal
    cpuInterval := by rw [hcpu, hconfig, hs.cpuInterval]
    timerInterval := htimer ▸ hs.timerInterval }

/-- The latch is no part of the invariant. -/
theorem State.Inv.raise (hs : s.Inv) {c : Cause} (h : Machine.raise c s = .next t) : t.Inv := by
  obtain rfl := Host.Outcome.next.inj h
  exact { hs with }

theorem cpuStep_inv (hs : s.Inv) (h : cpuStep s = .next t) : t.Inv := by
  rcases cpuStep_cases s with ⟨-, he⟩ | ⟨-, -, he⟩ | ⟨w, e, -, -, -, he⟩ | ⟨w, i, -, hw, -, he⟩
  · exact Host.Outcome.next.inj (he.symm.trans h) ▸ hs
  · exact hs.raise (he.symm.trans h)
  · exact hs.raise (he.symm.trans h)
  · obtain ⟨c, -, rfl⟩ | ⟨-, hc⟩ := exec_next_cases (he.symm.trans h)
    · exact { hs with }
    · exact hc.inv hs (State.fetch_some hw).1

theorem inputBatch_inv {events : List KeyEvent} (hs : s.Inv) (h : inputBatch events s = .next t) : t.Inv := by
  rw [inputBatch_frame h]
  exact { hs with }

theorem timerTick_inv (hs : s.Inv) : (timerTick s).Inv := by
  unfold timerTick
  split
  · exact hs
  · exact { hs with }

theorem renderAck_inv (hs : s.Inv) : (renderAck s).Inv := by
  unfold renderAck
  split
  · exact hs
  · exact { hs with }

/-- A gate that fires keeps its interval (60_exceptions R184). -/
theorem State.Inv.gatePoll (hs : s.Inv) (g : GateId) (now : Nat) : (s.gatePoll g now).Inv := by
  unfold State.gatePoll
  split
  · cases g <;> exact { hs with }
  · exact hs

/-- `Reset` loads at most the program region, at 0x200 (20_memory R58, 70_reset_and_hazards R200). -/
theorem resetState_inv {c : Config} (legal : c.wellFormed = true) (rom : List Byte) (t0 : Nat) :
    (resetState c rom t0).Inv where
  memCanonical := Memory.writeList_wf Memory.wf_nil (by simp [progBase, progCapacity, memSize]; omega)
  pcBound := by simp [resetState, State.reset]
  returnAddresses := fun k hk => absurd hk (Nat.not_lt_zero _)
  configLegal := legal
  cpuInterval := rfl
  timerInterval := rfl

theorem resetEvent_inv {c : Config} {rom : List Byte} {t0 : Nat} (h : resetEvent c rom t0 s = .next t) : t.Inv := by
  unfold resetEvent at h
  split at h
  · next legal =>
    obtain rfl := Host.Outcome.next.inj h
    exact { resetState_inv legal rom t0 with }
  · cases h

theorem deliver_inv (hs : s.Inv) {e : Event} (h : deliver e s = .next t) : t.Inv := by
  cases e with
  | reset c rom t0 => exact resetEvent_inv h
  | inputBatch events => exact inputBatch_inv hs h
  | cpuStep => exact cpuStep_inv hs h
  | timerTick => exact Host.Outcome.next.inj h ▸ timerTick_inv hs
  | gatePoll g now => exact Host.Outcome.next.inj h ▸ hs.gatePoll g now
  | renderAck => exact Host.Outcome.next.inj h ▸ renderAck_inv hs

theorem deliverAll_inv {events : List Event} (hs : s.Inv) (h : deliverAll events s = .next t) : t.Inv := by
  induction events generalizing s with
  | nil => exact Host.Outcome.next.inj h ▸ hs
  | cons e rest ih =>
    simp only [deliverAll] at h
    cases he : deliver e s with
    | next u =>
      rw [he] at h
      exact ih (deliver_inv hs he) h
    | fault r => simp [he] at h
    | refused r => simp [he] at h

theorem step_inv (hs : s.Inv) (h : step s = .next t) : t.Inv := by
  obtain ⟨u, rest, he, -⟩ := step_cases s
  exact deliverAll_inv (s := { s with inbox := rest }) { hs with } (he.symm.trans h)

/-- Settles O53: every event keeps the invariant, and a step delivers the events of one input. -/
theorem stepKeepsTheInvariant : Obligations.StepKeepsTheInvariant :=
  fun _ _ hs => ⟨step_inv hs, fun _ => deliver_inv hs⟩

/-- Settles O55, by induction on the run. -/
theorem reachableStatesHaveTheInvariant : Obligations.ReachableStatesHaveTheInvariant := by
  intro s h
  induction h with
  | reset c rom t0 inbox draws n legal => exact { resetState_inv legal rom t0 with }
  | step s t before taken ih => exact step_inv ih taken

/-- Settles O54: the reset state is a `Reset` of the empty ROM with the default parameters. -/
theorem resetStateHasTheInvariant : Obligations.ResetStateHasTheInvariant :=
  resetState_inv (c := Config.default) (by decide) [] 0

end Sys2Proof.Machine
end

section
/-! PROOF. Memory (20_memory): what a fetch reads or raises, that the very next fetch sees a store, and the bytes an
instruction leaves alone. -/

namespace Sys2Proof.Machine

variable {i : Instr} {s t : State}

/-! ### Fetch (20_memory R48) -/

/-- The word at `PC` as a number; it never wraps, because the two parts are bytes. -/
theorem State.wordAtPc_toNat (s : State) :
    s.wordAtPc.toNat = 256 * (s.readByte s.pc.toNat).toNat + (s.readByte (s.pc.toNat + 1)).toNat := by
  rw [← wordOfBytes_at_pc, toNat_wordOfBytes]

/-- A healthy `CpuStep` whose fetch fails raises `FetchBounds` with the address (60_exceptions R167). -/
theorem cpuStep_of_fetch_none (healthy : s.fault = none) (h : s.fetch = none) :
    cpuStep s = raise (.fetchBounds s.pc) s := by
  simp [cpuStep, (s.halted_eq_false).2 healthy, h]

/-- Settles O7: the two cases of the range check of a fetch. -/
theorem fetchReadsTwoBytesHighFirst : Obligations.FetchReadsTwoBytesHighFirst := fun s =>
  ⟨fun hout healthy => cpuStep_of_fetch_none healthy (State.fetch_eq_none hout),
    fun hin => ⟨s.wordAtPc, State.fetch_eq_wordAtPc hin, s.wordAtPc_toNat⟩⟩

/-! ### Stores (20_memory R47, R54) -/

/-- A store at `I` inside a canonical memory advances `PC`, writes nothing but memory, and is read back byte by byte
(42_index_memory R124, R125). -/
theorem storeAtI_readBack (hm : s.mem.wf s.config = true) {bytes : List Byte}
    (hin : s.i.toNat + bytes.length ≤ memSize) :
    ∃ t, storeAtI bytes s = .next t ∧ t = { s with pc := s.pc + 2, mem := t.mem } ∧
      ∀ (k : Nat) (hk : k < bytes.length), t.readByte (s.effectiveAddress k) = bytes[k] := by
  rcases storeAtI_cases bytes s with ⟨hf, -⟩ | ⟨-, h⟩
  · have hrange := (inRange_iff (s.effectiveAddress 0) bytes.length).2 (.inr hin)
    exact absurd (hf.symm.trans hrange) Bool.false_ne_true
  · exact ⟨_, h, rfl, fun _ hk => Memory.read_writeList hm hin hk⟩

/-- LD_IRR inside the memory: byte `k` from `I` then reads as `V[k]` (42_index_memory R125). -/
theorem exec_ldIRR_readBack (hm : s.mem.wf s.config = true) {x : Reg} (hin : s.i.toNat + x.val ≤ 4095) :
    ∃ t, exec (.ldIRR x) s = .next t ∧ t = { s with pc := s.pc + 2, mem := t.mem } ∧
      ∀ k : Reg, k ≤ x → t.readByte (s.effectiveAddress k.val) = s.getV k := by
  have hlen := s.length_regsThrough x
  obtain ⟨t, ht, hframe, hread⟩ := storeAtI_readBack hm (bytes := s.regsThrough x) (by rw [hlen, memSize]; omega)
  refine ⟨t, ht, hframe, fun k hk => ?_⟩
  have hk' : k.val < (s.regsThrough x).length := by rw [hlen]; exact Nat.lt_succ_of_le hk
  exact (hread k.val hk').trans (s.getElem_regsThrough x hk')

/-- Settles O34: with `I` at `PC + 2` the first two bytes stored are the two the next fetch reads. -/
theorem nextFetchSeesTheStore : Obligations.NextFetchSeesTheStore := by
  intro x s hm hx hi hin
  obtain ⟨t, ht, hframe, hread⟩ := exec_ldIRR_readBack hm hin
  have hpc : t.pc.toNat = s.pc.toNat + 2 := by rw [hframe]; exact pc_add_two (by omega)
  have hhigh : t.readByte t.pc.toNat = s.getV 0 := by
    rw [← hread 0 (Fin.zero_le x), State.effectiveAddress, hpc, ← hi]
    rfl
  have hlow : t.readByte (t.pc.toNat + 1) = s.getV 1 := by
    rw [← hread 1 hx, State.effectiveAddress, hpc, ← hi]
    rfl
  exact ⟨t, t.wordAtPc, ht, State.fetch_eq_wordAtPc (by omega), by rw [t.wordAtPc_toNat, hhigh, hlow]⟩

/-! ### The bytes an instruction leaves alone (20_memory R51) -/

/-- The one row that writes memory is a store, of exactly the listed length. -/
theorem Completes.readByte_eq (h : Completes s i t) {a : Nat}
    (outside : a < s.effectiveAddress 0 ∨ s.effectiveAddress (storedLength i) ≤ a) : t.readByte a = s.readByte a := by
  cases h with
  | store bytes all range =>
    rw [← all] at outside
    exact Memory.read_writeList_other s.mem outside
  | _ => rfl

/-- Settles O51: an instruction that raises writes no memory, and one that completes writes only the bytes it stores. -/
theorem onlyStoresChangeMemory : Obligations.OnlyStoresChangeMemory := by
  intro i s t h a outside
  obtain ⟨c, -, rfl⟩ | ⟨-, hc⟩ := exec_next_cases h
  · rfl
  · exact hc.readByte_eq outside

end Sys2Proof.Machine
end

section
/-! PROOF. Encoding (30_encoding): the decoder undoes the encoder, every answer of the decoder is right for its word,
and the rows of the opcode map are the words of their instructions. -/

namespace Sys2Proof

variable {w : Word}

/-! ### The word from the fields the decoder has read (R61, R62) -/

theorem packA_of {op : Nibble} (hop : fieldOp w = op) : packA op (fieldNNN w) = w := hop ▸ packA_fields w

theorem packXK_of {op : Nibble} (hop : fieldOp w = op) : packXK op (fieldX w) (fieldKK w) = w := hop ▸ packXK_fields w

theorem packXS_of {op : Nibble} {kk : Byte} (hop : fieldOp w = op) (hkk : fieldKK w = kk) :
    packXK op (fieldX w) kk = w := hkk ▸ packXK_of hop

theorem packXYN_of {op n : Nibble} (hop : fieldOp w = op) (hn : fieldN w = n) :
    packXYN op (fieldX w) (fieldY w) n = w := hop ▸ hn ▸ packXYN_fields w

theorem packA_inj (op : Nibble) (a b : Addr12) : packA op a = packA op b ↔ a = b :=
  ⟨fun h => by rw [← fieldNNN_packA op a, h, fieldNNN_packA], fun h => h ▸ rfl⟩

/-- The two literals kept from SYS are those whose word is CLS or RET (R64, R66). -/
theorem sysLiteralOk_iff (nnn : Addr12) :
    sysLiteralOk nnn = true ↔ packA 0x0 nnn ≠ 0x00E0#16 ∧ packA 0x0 nnn ≠ 0x00EE#16 := by
  have hcls : packA 0x0 nnn = 0x00E0#16 ↔ nnn = 0x0E0 := packA_inj 0x0 nnn 0x0E0
  have hret : packA 0x0 nnn = 0x00EE#16 ↔ nnn = 0x0EE := packA_inj 0x0 nnn 0x0EE
  simp [sysLiteralOk, hcls, hret]

/-! ### The decoder undoes the encoder (R71) -/

/-- One group of cases per route through the decoder: by the top nibble alone, or through one of the three families. -/
theorem decodeWord_encode {i : Instr} (h : i.wellFormed = true) : decodeWord (encode i) = .ok i := by
  cases i with
  | sys nnn =>
    obtain ⟨hcls, hret⟩ := (sysLiteralOk_iff nnn).1 h
    simp [encode, decodeWord, hcls, hret]
  | cls | ret => rfl
  | jp nnn | call nnn | ldIV nnn | jpRV nnn => simp [encode, decodeWord]
  | seRV x kk | sneRV x kk | ldRV x kk | addRV x kk | rnd x kk => simp [encode, decodeWord]
  | seRR x y | sneRR x y => simp [encode, decodeWord]
  | drw x y n => simp [encode, decodeWord]
  | ldRR x y | or x y | and x y | xor x y | addRR x y | subRR x y | shr x y | subn x y | shl x y =>
    simp [encode, decodeWord, decode8]
  | skp x | sknp x => simp [encode, decodeWord, decodeE]
  | ldRD x | ldRK x | ldDR x | ldSR x | addIR x | ldRF x | ldBR x | ldIRR x | ldRRI x =>
    simp [encode, decodeWord, decodeF]

/-- Settles O1: the word itself, and its two bytes in front of any others. -/
theorem decodeOfEncodeIsTheInstruction : Obligations.DecodeOfEncodeIsTheInstruction := by
  intro i hi
  have hdecode := decodeWord_encode hi
  exact ⟨hdecode, fun rest => by rw [decodeBytes_bytesOfWord, hdecode]⟩

/-! ### Every answer of the decoder is right (R65, R67) -/

/-- The answer is a well-formed instruction with the word `w`, or it rejects the illegal word `w` itself. -/
def RightAnswer (w : Word) : Except DecodeError Instr → Prop
  | .ok i => i.wellFormed = true ∧ encode i = w
  | .error e => e = .illegal w ∧ illegalWord w = true

theorem decode8_right (hop : fieldOp w = 0x8) : RightAnswer w (decode8 w) := by
  fun_cases decode8 w with
  | case10 =>
    have hlisted : fieldN w = 0x8 ∨ fieldN w = 0x9 ∨ fieldN w = 0xA ∨ fieldN w = 0xB ∨ fieldN w = 0xC ∨
        fieldN w = 0xD ∨ fieldN w = 0xF := by grind
    exact ⟨rfl, by simpa [illegalWord, hop] using hlisted⟩
  | _ => exact ⟨rfl, packXYN_of hop ‹_›⟩

theorem decodeE_right (hop : fieldOp w = 0xE) : RightAnswer w (decodeE w) := by
  fun_cases decodeE w with
  | case3 => exact ⟨rfl, by simp_all [illegalWord]⟩
  | _ => exact ⟨rfl, packXS_of hop ‹_›⟩

theorem decodeF_right (hop : fieldOp w = 0xF) : RightAnswer w (decodeF w) := by
  fun_cases decodeF w with
  | case10 => exact ⟨rfl, by simp_all [illegalWord]⟩
  | _ => exact ⟨rfl, packXS_of hop ‹_›⟩

/-- The cases are the arms of the dispatch by top nibble, in its order (R64). -/
theorem decodeWord_right (w : Word) : RightAnswer w (decodeWord w) := by
  fun_cases decodeWord w with
  | case1 _ hw | case2 _ _ hw => exact ⟨rfl, hw.symm⟩
  | case3 hop hcls hret =>
    rw [← packA_of hop] at hcls hret
    exact ⟨(sysLiteralOk_iff _).2 ⟨hcls, hret⟩, packA_of hop⟩
  | case4 hop | case5 hop | case15 hop | case16 hop => exact ⟨rfl, packA_of hop⟩
  | case6 hop | case7 hop | case10 hop | case11 hop | case17 hop => exact ⟨rfl, packXK_of hop⟩
  | case8 hop hn | case13 hop hn => exact ⟨rfl, packXYN_of hop hn⟩
  | case9 hop hn | case14 hop hn => exact ⟨rfl, by simp [illegalWord, hop, hn]⟩
  | case12 hop => exact decode8_right hop
  | case18 hop => exact ⟨rfl, packXYN_of hop rfl⟩
  | case19 hop => exact decodeE_right hop
  | case20 =>
    have hop : fieldOp w = 0xF := by grind
    exact decodeF_right hop

/-- Settles O2: an accepted word is the word of the instruction answered. -/
theorem encodeOfDecodeIsTheWord : Obligations.EncodeOfDecodeIsTheWord := by
  intro w i hdecode
  have hright := decodeWord_right w
  rwa [hdecode] at hright

/-- No instruction's word is listed as illegal (R67); one group of cases per format (R62). -/
theorem illegalWord_encode (i : Instr) : illegalWord (encode i) = false := by
  cases i with
  | cls | ret => rfl
  | sys nnn | jp nnn | call nnn | ldIV nnn | jpRV nnn => simp [illegalWord, encode]
  | seRV x kk | sneRV x kk | ldRV x kk | addRV x kk | rnd x kk => simp [illegalWord, encode]
  | skp x | sknp x | ldRD x | ldRK x | ldDR x | ldSR x | addIR x | ldRF x | ldBR x | ldIRR x | ldRRI x =>
    simp [illegalWord, encode]
  | seRR x y | ldRR x y | or x y | and x y | xor x y | addRR x y | subRR x y | shr x y | subn x y | shl x y
  | sneRR x y | drw x y n => simp [illegalWord, encode]

theorem illegal_of_decodeWord_error {e : DecodeError} (h : decodeWord w = .error e) :
    e = .illegal w ∧ illegalWord w = true := by
  have hright := decodeWord_right w
  rwa [h] at hright

/-- Settles O4: an accepted word is not listed because it is an instruction's word, and a rejected one is listed. -/
theorem illegalWordsAreExactlyTheListed : Obligations.IllegalWordsAreExactlyTheListed := by
  intro w
  cases hdecode : decodeWord w with
  | ok i =>
    obtain ⟨hwf, hword⟩ := encodeOfDecodeIsTheWord w i hdecode
    have hlegal : illegalWord w = false := hword ▸ illegalWord_encode i
    exact ⟨fun hillegal => absurd hillegal (Bool.eq_false_iff.1 hlegal), fun _ => ⟨i, hwf, rfl⟩⟩
  | error e =>
    obtain ⟨rfl, hillegal⟩ := illegal_of_decodeWord_error hdecode
    exact ⟨fun _ => rfl, fun hlegal => absurd hillegal (Bool.eq_false_iff.1 hlegal)⟩

/-! ### The rows of the opcode map (R66) -/

/-- `w` is the word of a well-formed instruction with the mnemonic `m`. -/
def IsWordOf (m : String) (w : Word) : Prop := ∃ i : Instr, i.wellFormed = true ∧ i.mnemonic = m ∧ encode i = w

theorem isWordOf_iff_decodes {m : String} : IsWordOf m w ↔ ∃ i : Instr, decodeWord w = .ok i ∧ i.mnemonic = m := by
  constructor
  · rintro ⟨i, hwf, hm, rfl⟩
    exact ⟨i, decodeWord_encode hwf, hm⟩
  · rintro ⟨i, hdecode, hm⟩
    obtain ⟨hwf, hword⟩ := encodeOfDecodeIsTheWord w i hdecode
    exact ⟨i, hwf, hm, hword⟩

theorem mask_of_covers {r : OpcodeRow} (h : r.covers w = true) : w &&& r.mask = r.pattern := by
  simp only [OpcodeRow.covers, Bool.and_eq_true, beq_iff_eq] at h
  exact h.1

section
variable {m : String} {op n : Nibble} {kk : Byte}

/-- A row with the mask 0xF000 fixes the top nibble. -/
theorem fieldOp_of_covers (h : (OpcodeRow.mk m (packXYN op 0 0 0) 0xF000).covers w = true) : fieldOp w = op := by
  simpa using congrArg fieldOp ((mask_top w).symm.trans (mask_of_covers h))

/-- A row with the mask 0xF00F fixes the top and the low nibble. -/
theorem packXYN_of_covers (h : (OpcodeRow.mk m (packXYN op 0 0 n) 0xF00F).covers w = true) :
    packXYN op (fieldX w) (fieldY w) n = w := by
  have hmask := (mask_lowNibble w).symm.trans (mask_of_covers h)
  exact packXYN_of (by simpa using congrArg fieldOp hmask) (by simpa using congrArg fieldN hmask)

/-- A row with the mask 0xF0FF fixes the top nibble and the low byte. -/
theorem packXS_of_covers (h : (OpcodeRow.mk m (packXK op 0 kk) 0xF0FF).covers w = true) :
    packXK op (fieldX w) kk = w := by
  have hmask := (mask_lowByte w).symm.trans (mask_of_covers h)
  exact packXS_of (by simpa using congrArg fieldOp hmask) (by simpa using congrArg fieldKK hmask)

/-- A row with the mask 0xFFFF fixes the whole word. -/
theorem eq_of_covers {p : Word} (h : (OpcodeRow.mk m p 0xFFFF).covers w = true) : w = p :=
  BitVec.and_allOnes.symm.trans (mask_of_covers h)

end

theorem isWordOf_sys (h : (OpcodeRow.mk "SYS" 0x0000 0xF000).covers w = true) : IsWordOf "SYS" w := by
  have hword : packA 0x0 (fieldNNN w) = w := packA_of (fieldOp_of_covers h)
  obtain ⟨-, hexcepted⟩ : w &&& 0xF000#16 = 0#16 ∧ w ≠ 0x00E0#16 ∧ w ≠ 0x00EE#16 := by
    simpa [OpcodeRow.covers] using h
  rw [← hword] at hexcepted
  exact ⟨.sys (fieldNNN w), (sysLiteralOk_iff _).2 hexcepted, rfl, hword⟩

/-! Row by row of the opcode map: the instruction whose word a covered word is. -/

theorem isWordOf_of_covers_top :
    ∀ r ∈ opcodeMapTop, r.covers w = true → IsWordOf r.mnemonic w := by
  simp only [opcodeMapTop, List.forall_mem_cons]
  exact ⟨isWordOf_sys,
    fun h => ⟨.cls, rfl, rfl, (eq_of_covers h).symm⟩,
    fun h => ⟨.ret, rfl, rfl, (eq_of_covers h).symm⟩,
    fun h => ⟨.jp _, rfl, rfl, packA_of (fieldOp_of_covers h)⟩,
    fun h => ⟨.call _, rfl, rfl, packA_of (fieldOp_of_covers h)⟩,
    fun h => ⟨.seRV _ _, rfl, rfl, packXK_of (fieldOp_of_covers h)⟩,
    fun h => ⟨.sneRV _ _, rfl, rfl, packXK_of (fieldOp_of_covers h)⟩,
    fun h => ⟨.ldRV _ _, rfl, rfl, packXK_of (fieldOp_of_covers h)⟩,
    fun h => ⟨.addRV _ _, rfl, rfl, packXK_of (fieldOp_of_covers h)⟩,
    fun h => ⟨.ldIV _, rfl, rfl, packA_of (fieldOp_of_covers h)⟩,
    fun h => ⟨.jpRV _, rfl, rfl, packA_of (fieldOp_of_covers h)⟩,
    fun h => ⟨.rnd _ _, rfl, rfl, packXK_of (fieldOp_of_covers h)⟩,
    fun h => ⟨.drw _ _ _, rfl, rfl, packXYN_of (fieldOp_of_covers h) rfl⟩,
    List.forall_mem_nil _⟩

theorem isWordOf_of_covers_lowNibble :
    ∀ r ∈ opcodeMapLowNibble, r.covers w = true → IsWordOf r.mnemonic w := by
  simp only [opcodeMapLowNibble, List.forall_mem_cons]
  exact ⟨fun h => ⟨.seRR _ _, rfl, rfl, packXYN_of_covers h⟩,
    fun h => ⟨.ldRR _ _, rfl, rfl, packXYN_of_covers h⟩,
    fun h => ⟨.or _ _, rfl, rfl, packXYN_of_covers h⟩,
    fun h => ⟨.and _ _, rfl, rfl, packXYN_of_covers h⟩,
    fun h => ⟨.xor _ _, rfl, rfl, packXYN_of_covers h⟩,
    fun h => ⟨.addRR _ _, rfl, rfl, packXYN_of_covers h⟩,
    fun h => ⟨.subRR _ _, rfl, rfl, packXYN_of_covers h⟩,
    fun h => ⟨.shr _ _, rfl, rfl, packXYN_of_covers h⟩,
    fun h => ⟨.subn _ _, rfl, rfl, packXYN_of_covers h⟩,
    fun h => ⟨.shl _ _, rfl, rfl, packXYN_of_covers h⟩,
    fun h => ⟨.sneRR _ _, rfl, rfl, packXYN_of_covers h⟩,
    List.forall_mem_nil _⟩

theorem isWordOf_of_covers_lowByte :
    ∀ r ∈ opcodeMapLowByte, r.covers w = true → IsWordOf r.mnemonic w := by
  simp only [opcodeMapLowByte, List.forall_mem_cons]
  exact ⟨fun h => ⟨.skp _, rfl, rfl, packXS_of_covers h⟩,
    fun h => ⟨.sknp _, rfl, rfl, packXS_of_covers h⟩,
    fun h => ⟨.ldRD _, rfl, rfl, packXS_of_covers h⟩,
    fun h => ⟨.ldRK _, rfl, rfl, packXS_of_covers h⟩,
    fun h => ⟨.ldDR _, rfl, rfl, packXS_of_covers h⟩,
    fun h => ⟨.ldSR _, rfl, rfl, packXS_of_covers h⟩,
    fun h => ⟨.addIR _, rfl, rfl, packXS_of_covers h⟩,
    fun h => ⟨.ldRF _, rfl, rfl, packXS_of_covers h⟩,
    fun h => ⟨.ldBR _, rfl, rfl, packXS_of_covers h⟩,
    fun h => ⟨.ldIRR _, rfl, rfl, packXS_of_covers h⟩,
    fun h => ⟨.ldRRI _, rfl, rfl, packXS_of_covers h⟩,
    List.forall_mem_nil _⟩

theorem isWordOf_of_covers {r : OpcodeRow} (hr : r ∈ opcodeMap) (h : r.covers w = true) : IsWordOf r.mnemonic w := by
  simp only [opcodeMap, List.mem_append] at hr
  rcases hr with (hr | hr) | hr
  · exact isWordOf_of_covers_top r hr h
  · exact isWordOf_of_covers_lowNibble r hr h
  · exact isWordOf_of_covers_lowByte r hr h

theorem nodup_mnemonics_opcodeMap : (opcodeMap.map OpcodeRow.mnemonic).Nodup := by decide

/-- The family RowPattern for every instruction (R66). -/
theorem Laws.RowPattern.statement : ∀ i : Instr, Statement i
  | .sys _ => sys _ | .cls => cls | .ret => ret | .jp _ => jp _ | .call _ => call _ | .seRV _ _ => seRV _ _
  | .sneRV _ _ => sneRV _ _ | .seRR _ _ => seRR _ _ | .ldRV _ _ => ldRV _ _ | .addRV _ _ => addRV _ _
  | .ldRR _ _ => ldRR _ _ | .or _ _ => or _ _ | .and _ _ => and _ _ | .xor _ _ => xor _ _ | .addRR _ _ => addRR _ _
  | .subRR _ _ => subRR _ _ | .shr _ _ => shr _ _ | .subn _ _ => subn _ _ | .shl _ _ => shl _ _
  | .sneRR _ _ => sneRR _ _ | .ldIV _ => ldIV _ | .jpRV _ => jpRV _ | .rnd _ _ => rnd _ _ | .drw _ _ _ => drw _ _ _
  | .skp _ => skp _ | .sknp _ => sknp _ | .ldRD _ => ldRD _ | .ldRK _ => ldRK _ | .ldDR _ => ldDR _
  | .ldSR _ => ldSR _ | .addIR _ => addIR _ | .ldRF _ => ldRF _ | .ldBR _ => ldBR _ | .ldIRR _ => ldIRR _
  | .ldRRI _ => ldRRI _

theorem covers_of_isWordOf {r : OpcodeRow} (hr : r ∈ opcodeMap) (h : IsWordOf r.mnemonic w) : r.covers w = true := by
  obtain ⟨i, hwf, hm, rfl⟩ := h
  obtain ⟨r', hr', hm', hcovers⟩ := Laws.RowPattern.statement i hwf
  have hsame : r' = r := List.inj_on_of_nodup_map nodup_mnemonics_opcodeMap hr' hr (hm'.trans hm)
  exact hsame ▸ hcovers

/-- Settles O3: both sides say that `w` is the word of an instruction with the row's mnemonic. -/
theorem decoderFollowsTheOpcodeMap : Obligations.DecoderFollowsTheOpcodeMap :=
  fun _ _ hr => ⟨fun h => isWordOf_iff_decodes.1 (isWordOf_of_covers hr h),
    fun h => covers_of_isWordOf hr (isWordOf_iff_decodes.2 h)⟩

end Sys2Proof
end

section
/-! PROOF. Control flow (40_control_flow): the decoded instruction behind its input batch, SYS, the jumps, CALL and RET,
and the skips on registers. -/

namespace Sys2Proof.Machine

variable {s : State}

/-! ### The step (40_control_flow R80) -/

/-- A healthy `CpuStep` whose word decodes executes the instruction. -/
theorem cpuStep_of_decodes {i : Instr} (healthy : s.fault = none) (hin : s.pc.toNat + 1 ≤ 4095)
    (hdecode : decodeWord s.wordAtPc = .ok i) : cpuStep s = exec i s := by
  simp [cpuStep, (s.halted_eq_false).2 healthy, State.fetch_eq_wordAtPc hin, runWord, hdecode]

/-- Settles O6: a batch changes the key latch alone, so the `CpuStep` behind it fetches the same word. -/
theorem stepRunsTheDecodedInstruction : Obligations.StepRunsTheDecodedInstruction := by
  intro s i healthy hin hdecode
  refine ⟨cpuStep_of_decodes healthy hin hdecode, fun hempty => ?_, fun events rest t hinbox hbatch => ?_⟩
  · rw [step_of_empty hempty healthy]
    exact cpuStep_of_decodes (s := { s with lastKey := none }) healthy hin hdecode
  · rw [step_of_input hinbox, deliverAll_cycle, hbatch, inputBatch_frame hbatch]
    exact cpuStep_of_decodes (s := { s with inbox := rest, keys := t.keys, lastKey := t.lastKey }) healthy hin hdecode

/-! ### SYS (R83) -/

/-- Settles O13: the word of SYS is `0nnn`, and a word with top nibble 0 but those of CLS and RET is the word of a SYS. -/
theorem sysAlwaysRaisesUnsupportedOp : Obligations.SysAlwaysRaisesUnsupportedOp := by
  refine ⟨fun nnn s => by rw [← encode_sys]; rfl, fun w s hlt hcls hret => ?_⟩
  have hop : fieldOp w = 0 := Fin.ext ((fieldOp_val w).trans (Nat.div_eq_of_lt hlt))
  obtain ⟨nnn, rfl⟩ : ∃ nnn, encode (.sys nnn) = w := ⟨fieldNNN w, packA_of hop⟩
  exact ⟨.sys nnn, decodeWord_encode ((sysLiteralOk_iff nnn).2 ⟨hcls, hret⟩), rfl⟩

/-! ### CALL and RET (R84, R85) -/

theorem exec_call_of_full (nnn : Addr12) (full : s.sp.val = 16) : exec (.call nnn) s = raise .stackOverflow s := by
  obtain ⟨-, hpush⟩ | ⟨room, -⟩ := s.advance.push_cases s.advance.pc
  · simp only [exec, execCall, hpush]
  · exact absurd full (Nat.ne_of_lt room)

theorem exec_call_of_room (nnn : Addr12) (room : s.sp.val < 16) :
    exec (.call nnn) s = .next
      { s with pc := zext12 nnn, sp := ⟨s.sp.val + 1, by omega⟩, stack := s.stack.set s.sp.val (s.pc + 2) } := by
  obtain ⟨full, -⟩ | ⟨_, hpush⟩ := s.advance.push_cases s.advance.pc
  · exact absurd full (Nat.ne_of_lt room)
  · simp only [exec, execCall, hpush]
    rfl

theorem exec_ret_of_empty (empty : s.sp.val = 0) : exec .ret s = raise .stackUnderflow s := by
  obtain ⟨-, hpop⟩ | ⟨used, -⟩ := s.advance.pop_cases
  · simp only [exec, execRet, hpop]
  · exact absurd empty used

/-- RET with entry `k` on top leaves `k` entries in use. -/
theorem exec_ret_of_top {k : Fin 16} (top : s.sp.val = k.val + 1) :
    exec .ret s = .next { s with pc := s.stack[k], sp := k.castSucc } := by
  have htop : s.sp.val - 1 = k.val := by omega
  obtain ⟨empty, -⟩ | ⟨-, hpop⟩ := s.advance.pop_cases
  · exact absurd (top.symm.trans empty) (Nat.succ_ne_zero _)
  · simp only [exec, execRet, hpop, State.advance_sp, State.advance_stack, htop]
    rfl

/-- Settles O14: with room the one entry written is the one at `SP`. -/
theorem callPushesTheReturnAddress : Obligations.CallPushesTheReturnAddress := by
  refine fun nnn s => ⟨exec_call_of_full nnn, fun notFull => ?_⟩
  have room : s.sp.val < 16 := by omega
  refine ⟨_, exec_call_of_room nnn room, rfl, rfl, zext12_toNat nnn, fun k => ?_⟩
  simp [Vector.getElem_set, eq_comm]

/-- Settles O15: an empty stack, or the entry on top; RET writes no stack entry. -/
theorem retPopsTheReturnAddress : Obligations.RetPopsTheReturnAddress :=
  fun _ => ⟨exec_ret_of_empty, fun _ top => ⟨_, exec_ret_of_top top, rfl, rfl⟩⟩

/-- Settles O16: RET pops the entry that CALL pushed, at the `SP` the CALL began with. -/
theorem retUndoesCall : Obligations.RetUndoesCall := by
  intro nnn s notFull
  have room : s.sp.val < 16 := by omega
  refine ⟨_, _, exec_call_of_room nnn room, exec_ret_of_top (k := ⟨s.sp.val, room⟩) rfl, ?_, fun k hk => ?_⟩
  · simp
  · simp [Vector.getElem_set_ne, hk.symm]

/-! ### Jumps (R86, R87) -/

/-- The target of JP_RV is the sum itself: it never wraps. -/
theorem zext12_add_zext8_toNat (nnn : Addr12) (b : Byte) : (zext12 nnn + zext8 b).toNat = nnn.toNat + b.toNat := by
  have := nnn.isLt
  have := b.isLt
  rw [BitVec.toNat_add_of_lt (by simp; omega), zext12_toNat, zext8_toNat]

/-- Settles O17: the jump keeps the latch, so a target out of range is raised by the next fetch. -/
theorem jumpWithOffsetIsNotChecked : Obligations.JumpWithOffsetIsNotChecked := by
  intro nnn s
  refine ⟨_, rfl, rfl, zext12_add_zext8_toNat nnn (s.getV 0), fun healthy hout => ?_⟩
  exact cpuStep_of_fetch_none healthy (State.fetch_eq_none (Nat.lt_succ_of_le hout))

/-- JP's word is `1nnn`. -/
theorem encode_jp (nnn : Addr12) : encode (.jp nnn) = BitVec.ofNat 16 (0x1000 + nnn.toNat) := by
  apply BitVec.eq_of_toNat_eq
  have hlt := nnn.isLt
  rw [encode, toNat_packA, BitVec.toNat_ofNat, Nat.mod_eq_of_lt (by omega)]
  rfl

theorem exec_jp (nnn : Addr12) (s : State) : exec (.jp nnn) s = .next { s with pc := zext12 nnn } := rfl

/-- Settles O18: where `nnn` is the address of the JP, the one field it writes keeps its value. -/
theorem jumpGoesToItsTarget : Obligations.JumpGoesToItsTarget := by
  intro nnn s
  refine ⟨?_, ⟨_, rfl, rfl, zext12_toNat nnn⟩, fun hself => ?_⟩
  · rw [← encode_jp]
    exact decodeWord_encode rfl
  · have hpc : zext12 nnn = s.pc := BitVec.eq_of_toNat_eq ((zext12_toNat nnn).trans hself)
    rw [exec_jp, hpc]

/-! ### Skips on registers (R82, R88 to R91) -/

/-- The advance and a skip: on by 4 where the condition holds, by 2 where it does not. -/
theorem State.advance_skipIf (s : State) (c : Bool) :
    s.advance.skipIf c = { s with pc := if c then s.pc + 4 else s.pc + 2 } := by
  cases c
  · rfl
  · exact congrArg s.setPc (pc_add_two_two s.pc)

/-- SE: the condition is that the two bytes are equal. -/
theorem State.advance_skipIf_beq (s : State) (a b : Byte) :
    s.advance.skipIf (a == b) = { s with pc := if a = b then s.pc + 4 else s.pc + 2 } := by
  simp [State.advance_skipIf]

/-- SNE: the condition is that the two bytes differ. -/
theorem State.advance_skipIf_bne (s : State) (a b : Byte) :
    s.advance.skipIf (a != b) = { s with pc := if a = b then s.pc + 2 else s.pc + 4 } := by
  simp [State.advance_skipIf]

/-- Settles O20: SE_RV and SE_RR skip on equality, SNE_RV and SNE_RR on the opposite. -/
theorem registerSkipsTestTheirCondition : Obligations.RegisterSkipsTestTheirCondition := fun x y kk s =>
  ⟨congrArg _ (s.advance_skipIf_beq (s.getV x) kk), congrArg _ (s.advance_skipIf_bne (s.getV x) kk),
    congrArg _ (s.advance_skipIf_beq (s.getV x) (s.getV y)), congrArg _ (s.advance_skipIf_bne (s.getV x) (s.getV y))⟩

end Sys2Proof.Machine
end

section
/-! PROOF. Register load, arithmetic, logic, shift and random instructions (41_alu): what a write to one register, a
result before its flag and a flag before its result leave in the registers; each instruction is then one of these. -/

namespace Sys2Proof.Machine

variable {i : Instr} {s : State} {x : Reg}

/-! ### Bytes as numbers -/

theorem toNat_byte_sub (a b : Byte) : (a - b).toNat = (a.toNat + 256 - b.toNat) % 256 := by
  have := b.isLt
  rw [BitVec.toNat_sub]
  omega

theorem toNat_byte_shiftRight_one (b : Byte) : (b >>> 1).toNat = b.toNat / 2 := by
  rw [BitVec.toNat_ushiftRight, Nat.shiftRight_eq_div_pow, Nat.pow_one]

theorem toNat_byte_shiftLeft_one (b : Byte) : (b <<< 1).toNat = 2 * b.toNat % 256 := by
  rw [BitVec.toNat_shiftLeft, Nat.shiftLeft_eq, Nat.pow_one, Nat.mul_comm]

theorem carryOut_toNat (a b : Byte) : (carryOut a b).toNat = if 256 ≤ a.toNat + b.toNat then 1 else 0 := by
  simp [carryOut, flagByte_toNat]

theorem noBorrow_toNat (a b : Byte) : (noBorrow a b).toNat = if b.toNat ≤ a.toNat then 1 else 0 := by
  simp [noBorrow, flagByte_toNat]

/-- Equality is no borrow (R106). -/
theorem noBorrow_self (a : Byte) : noBorrow a a = 1 := by simp [noBorrow, flagByte]

/-! ### One register written (R100 to R105) -/

/-- An instruction that writes the byte `b` to `V[x]`: no other register, VF included, and nothing else but `PC`. -/
theorem exec_of_setV {b : Byte} (meaning : exec i s = .next (s.advance.setV x b)) :
    ∃ t, exec i s = .next t ∧ t = { s with v := t.v, pc := s.pc + 2 } ∧
      ∀ r : Reg, t.getV r = if r = x then b else s.getV r :=
  ⟨_, meaning, rfl, fun r => s.advance.getV_setV x r b⟩

/-- The same, bit by bit: `f k` is bit `k` of the byte written. -/
theorem exec_of_setV_bits {b : Byte} {f : Nat → Bool} (meaning : exec i s = .next (s.advance.setV x b))
    (bits : ∀ k, b.getLsbD k = f k) :
    ∃ t, exec i s = .next t ∧ t = { s with v := t.v, pc := s.pc + 2 } ∧
      ∀ (r : Reg) (k : Nat), k < 8 → (t.getV r).getLsbD k = if r = x then f k else (s.getV r).getLsbD k := by
  obtain ⟨t, hexec, hframe, hread⟩ := exec_of_setV meaning
  refine ⟨t, hexec, hframe, fun r k _ => ?_⟩
  rw [hread, apply_ite (BitVec.getLsbD · k), bits]

/-- LD_RV's word is `6xkk`. -/
theorem encode_ldRV (x : Reg) (kk : Byte) :
    encode (.ldRV x kk) = BitVec.ofNat 16 (0x6000 + 0x100 * x.val + kk.toNat) := by
  apply BitVec.eq_of_toNat_eq
  have hx := x.isLt
  have hkk := kk.isLt
  rw [encode, toNat_packXK, BitVec.toNat_ofNat, Nat.mod_eq_of_lt (by omega)]
  rfl

/-- Settles O21: the word is LD_RV's encoding, and the meaning is one register write. -/
theorem loadImmediate : Obligations.LoadImmediate :=
  fun x kk _ => ⟨encode_ldRV x kk ▸ decodeWord_encode rfl, exec_of_setV rfl⟩

/-- Settles O22: one register write each, of the sum of bytes and of the byte of `V[y]`. -/
theorem addImmediateAndCopy : Obligations.AddImmediateAndCopy := by
  refine fun x y kk s => ⟨?_, exec_of_setV rfl⟩
  obtain ⟨t, hexec, hframe, hread⟩ := exec_of_setV (i := .addRV x kk) (s := s) rfl
  refine ⟨t, hexec, hframe, fun r => ?_⟩
  rw [hread, apply_ite BitVec.toNat, BitVec.toNat_add]

/-- Settles O23: one register write each, of a byte whose bits are the operation on the operands' bits. -/
theorem logicIsBitwise : Obligations.LogicIsBitwise := fun _ _ _ =>
  ⟨exec_of_setV_bits rfl fun _ => BitVec.getLsbD_or, exec_of_setV_bits rfl fun _ => BitVec.getLsbD_and,
    exec_of_setV_bits rfl fun _ => BitVec.getLsbD_xor⟩

/-! ### Result first, flag second (R107, R108, R110, R112) -/

theorem getV_resultThenFlag (x r : Reg) (result flag : Byte) (s : State) :
    (resultThenFlag x result flag s).getV r = if r = 15 then flag else if r = x then result else s.getV r := by
  rw [resultThenFlag, State.getV_setFlag, State.getV_setV]

/-- Where the flag is written last, VF ends as the flag whatever `x`. -/
theorem exec_of_resultThenFlag {result flag : Byte}
    (meaning : exec i s = .next (resultThenFlag x result flag s.advance)) :
    ∃ t, exec i s = .next t ∧ t = { s with v := t.v, pc := s.pc + 2 } ∧ t.getV 15 = flag ∧
      (x ≠ 15 → t.getV x = result) ∧ ∀ r : Reg, r ≠ x → r ≠ 15 → t.getV r = s.getV r := by
  have hread (r : Reg) := getV_resultThenFlag x r result flag s.advance
  refine ⟨_, meaning, rfl, ?_, fun hx => ?_, fun r hrx hr => ?_⟩
  · rw [hread, if_pos rfl]
  · rw [hread, if_neg hx, if_pos rfl]
  · rw [hread, if_neg hr, if_neg hrx, State.getV_advance]

/-- SUB_RR and SUBN: the minuend `a`, the subtrahend `b`. -/
theorem exec_of_subtraction {a b : Byte}
    (meaning : exec i s = .next (resultThenFlag x (a - b) (noBorrow a b) s.advance)) :
    ∃ t, exec i s = .next t ∧ t = { s with v := t.v, pc := s.pc + 2 } ∧
      (t.getV 15).toNat = (if b.toNat ≤ a.toNat then 1 else 0) ∧
      (x ≠ 15 → (t.getV x).toNat = (a.toNat + 256 - b.toNat) % 256) ∧
      ∀ r : Reg, r ≠ x → r ≠ 15 → t.getV r = s.getV r := by
  obtain ⟨t, hexec, hframe, hflag, hresult, hother⟩ := exec_of_resultThenFlag meaning
  exact ⟨t, hexec, hframe, by rw [hflag, noBorrow_toNat], fun hx => by rw [hresult hx, toNat_byte_sub], hother⟩

/-- Settles O24: the flag, written last, is the carry of the operands as they were before. -/
theorem addRegistersSetsCarry : Obligations.AddRegistersSetsCarry := by
  intro x y s
  obtain ⟨t, hexec, hframe, hflag, hresult, hother⟩ := exec_of_resultThenFlag (i := .addRR x y) (s := s) rfl
  exact ⟨t, hexec, hframe, by rw [hflag, carryOut_toNat], fun hx => by rw [hresult hx, BitVec.toNat_add], hother⟩

/-- Settles O25: one subtraction with its two operands in either order. -/
theorem subtractionsSetNoBorrow : Obligations.SubtractionsSetNoBorrow :=
  fun _ _ _ => ⟨exec_of_subtraction rfl, exec_of_subtraction rfl⟩

/-! ### Flag first, result second (R109, R111, R112) -/

/-- Where the flag is written first, the operation `op` reads `V[x]` after it: with `x` = 15 it reads the flag. -/
theorem exec_of_flagThenResult {flag : Byte} {op : Byte → Byte}
    (meaning : exec i s =
      .next ((s.advance.setFlag flag).setV x (op ((s.advance.setFlag flag).getV x)))) :
    ∃ t, exec i s = .next t ∧ t = { s with v := t.v, pc := s.pc + 2 } ∧
      (x ≠ 15 → t.getV x = op (s.getV x) ∧ t.getV 15 = flag) ∧ (x = 15 → t.getV 15 = op flag) ∧
      ∀ r : Reg, r ≠ x → r ≠ 15 → t.getV r = s.getV r := by
  have hflagged (r : Reg) : (s.advance.setFlag flag).getV r = if r = 15 then flag else s.getV r :=
    s.advance.getV_setFlag flag r
  refine ⟨_, meaning, rfl, fun hx => ⟨?_, ?_⟩, ?_, fun r hrx hr => ?_⟩
  · rw [State.getV_setV_same, hflagged, if_neg hx]
  · rw [State.getV_setV_other _ _ hx.symm, hflagged, if_pos rfl]
  · rintro rfl
    rw [State.getV_setV_same, hflagged, if_pos rfl]
  · rw [State.getV_setV_other _ _ hrx, hflagged, if_neg hr]

/-- The flag of SHR, halved, is 0. -/
theorem lowBitOut_shiftRight_one (a : Byte) : lowBitOut a >>> 1 = 0 := by
  apply BitVec.eq_of_toNat_eq
  rw [toNat_byte_shiftRight_one, lowBitOut_toNat]
  exact Nat.div_eq_of_lt (Nat.mod_lt _ Nat.two_pos)

/-- The flag of SHL, doubled, does not wrap. -/
theorem toNat_highBitOut_shiftLeft_one (a : Byte) : (highBitOut a <<< 1).toNat = 2 * (a.toNat / 128) := by
  have := a.isLt
  rw [toNat_byte_shiftLeft_one, highBitOut_toNat]
  omega

/-- Settles O26: with `x` = 15 what is halved or doubled is the flag just written. -/
theorem shiftsSetTheBitShiftedOut : Obligations.ShiftsSetTheBitShiftedOut := by
  intro x y s
  constructor
  · obtain ⟨t, hexec, hframe, hne, heq, hother⟩ :=
      exec_of_flagThenResult (i := .shr x y) (s := s) (op := (· >>> 1)) rfl
    refine ⟨t, hexec, hframe, fun hx => ?_, fun hx => ?_, hother⟩
    · obtain ⟨hresult, hflag⟩ := hne hx
      exact ⟨by rw [hresult, toNat_byte_shiftRight_one], by rw [hflag, lowBitOut_toNat]⟩
    · rw [heq hx, lowBitOut_shiftRight_one]
  · obtain ⟨t, hexec, hframe, hne, heq, hother⟩ :=
      exec_of_flagThenResult (i := .shl x y) (s := s) (op := (· <<< 1)) rfl
    refine ⟨t, hexec, hframe, fun hx => ?_, fun hx => ?_, hother⟩
    · obtain ⟨hresult, hflag⟩ := hne hx
      exact ⟨by rw [hresult, toNat_byte_shiftLeft_one], by rw [hflag, highBitOut_toNat]⟩
    · rw [heq hx, toNat_highBitOut_shiftLeft_one, hx]

/-! ### One register as both operands (R114) -/

/-- Writing to a register the byte it holds leaves the register file as it was. -/
theorem exec_of_setV_getV {b : Byte} (meaning : exec i s = .next (s.advance.setV x b)) (same : b = s.getV x) :
    ∃ t, exec i s = .next t ∧ t.v = s.v := by
  obtain ⟨t, hexec, -, hread⟩ := exec_of_setV meaning
  refine ⟨t, hexec, State.v_ext fun r => ?_⟩
  rw [hread, same]
  split
  · next hr => rw [hr]
  · rfl

/-- A byte subtracted from itself: 0, and no borrow. -/
theorem exec_of_subtraction_self {a : Byte}
    (meaning : exec i s = .next (resultThenFlag x (a - a) (noBorrow a a) s.advance)) :
    ∃ t, exec i s = .next t ∧ t.getV 15 = 1 ∧ (x ≠ 15 → t.getV x = 0) := by
  obtain ⟨t, hexec, -, hflag, hresult, -⟩ := exec_of_resultThenFlag meaning
  exact ⟨t, hexec, hflag.trans (noBorrow_self a), fun hx => (hresult hx).trans (BitVec.sub_self a)⟩

/-- A byte added to itself: twice the byte, and its top bit for the carry. -/
theorem exec_addRR_self (x : Reg) (s : State) :
    ∃ t, exec (.addRR x x) s = .next t ∧ (t.getV 15).toNat = (s.getV x).toNat / 128 ∧
      (x ≠ 15 → (t.getV x).toNat = 2 * (s.getV x).toNat % 256) := by
  obtain ⟨t, hexec, -, hflag, hresult, -⟩ := addRegistersSetsCarry x x s
  have := (s.getV x).isLt
  refine ⟨t, hexec, ?_, fun hx => by rw [hresult hx, Nat.two_mul]⟩
  rw [hflag]
  split <;> omega

/-- Settles O27: each operation on a byte and itself. -/
theorem sameRegisterAsBothOperands : Obligations.SameRegisterAsBothOperands := by
  refine fun x s => ⟨exec_of_setV_getV rfl rfl, exec_of_setV_getV rfl BitVec.or_self,
    exec_of_setV_getV rfl BitVec.and_self, ⟨_, rfl, ?_⟩, exec_of_subtraction_self rfl, exec_of_subtraction_self rfl,
    exec_addRR_self x s⟩
  exact (State.getV_setV_same _ x _).trans BitVec.xor_self

/-! ### The random input (R113) -/

theorem State.draw_of_cons {d : Byte} {rest : List Byte} (h : s.draws = d :: rest) : s.draw = d := by
  simp [State.draw, h]

theorem State.draw_of_nil (h : s.draws = []) : s.draw = Config.freeDraw s.drawIndex := by
  simp [State.draw, h]

/-- Settles O28: the byte written is the draw masked, and the draw is the host's byte or the free value. -/
theorem randomIsTheMaskedDraw : Obligations.RandomIsTheMaskedDraw := by
  intro x kk s
  have hbits (k : Nat) :
      ((s.advance.takeDraw.setV x (s.draw &&& kk)).getV x).getLsbD k = (s.draw.getLsbD k && kk.getLsbD k) := by
    rw [State.getV_setV_same, BitVec.getLsbD_and]
  refine ⟨_, rfl, rfl, fun r hr => State.getV_setV_other _ _ hr, fun d rest hdraws k => ?_, fun hdraws k => ?_⟩
  · rw [← State.draw_of_cons hdraws]
    exact hbits k
  · rw [← State.draw_of_nil hdraws]
    exact hbits k

end Sys2Proof.Machine
end

section
/-! PROOF. The address register and memory (42_index_memory): the values LD_IV, ADD_IR and LD_RF put in `I`, the bytes
LD_BR and LD_IRR store and leave, the registers LD_RRI loads and leaves, and the faults of all three. -/

namespace Sys2Proof.Machine

variable {i : Instr} {s : State} {x : Reg}

/-! ### The address register (R120, R121, R123) -/

theorem glyphIndex_lowNibble_toNat (v : Byte) : (glyphIndex .lowNibble v).toNat = v.toNat % 16 := by
  rw [glyphIndex, BitVec.toNat_and]
  exact Nat.and_two_pow_sub_one_eq_mod v.toNat 4

/-- Five times a byte never wraps. -/
theorem glyphAddress_toNat (mask : FontIndexMask) (v : Byte) :
    (glyphAddress mask v).toNat = 5 * (glyphIndex mask v).toNat := by
  have := (glyphIndex mask v).isLt
  rw [glyphAddress, BitVec.toNat_mul_of_lt (by simp; omega), zext8_toNat]
  rfl

/-- Settles O29: one write to `I` each, of the literal, of the sum and of the address of the glyph. -/
theorem addressRegisterWrites : Obligations.AddressRegisterWrites := by
  refine fun nnn x s => ⟨⟨_, rfl, rfl, zext12_toNat nnn⟩, ⟨_, rfl, rfl, ?_⟩,
    ⟨_, rfl, rfl, fun hmask => ?_, fun hmask => ?_⟩⟩
  · rw [State.setI_i, BitVec.toNat_add, zext8_toNat]
  · rw [State.setI_i, glyphAddress_toNat, hmask]
    rfl
  · rw [State.setI_i, glyphAddress_toNat, hmask, glyphIndex_lowNibble_toNat]

/-! ### Faults (60_exceptions R167) -/

/-- The cause the table gives is the one raised, in the state the step began in. -/
theorem exec_of_raisedBy {c : Cause} (h : raisedBy i s = some c) :
    exec i s = .next { s with fault := some ⟨c, s.pc⟩ } := by
  obtain ⟨d, hd, hexec⟩ | ⟨hnone, -⟩ := raisesOrCompletes i s
  · obtain rfl : c = d := Option.some.inj (h.symm.trans hd)
    exact hexec
  · exact absurd (h.symm.trans hnone) (Option.some_ne_none c)

/-! ### Stores (R124, R125) -/

/-- The three bytes are the digits themselves: each fits in a byte. -/
theorem bcdDigits_toNat (v : Byte) :
    (bcdDigits v)[0].toNat = v.toNat / 100 ∧ (bcdDigits v)[1].toNat = v.toNat / 10 % 10 ∧
      (bcdDigits v)[2].toNat = v.toNat % 10 := by
  have := v.isLt
  simp only [bcdDigits, List.getElem_cons_zero, List.getElem_cons_succ, BitVec.toNat_ofNat]
  omega

/-- Settles O30: the three digits are read back from where the store put them. -/
theorem bcdStoresThreeDigits : Obligations.BcdStoresThreeDigits := by
  refine fun x s hm => ⟨fun hout => exec_of_raisedBy (if_pos hout), fun hin => ?_⟩
  obtain ⟨t, hexec, hframe, hread⟩ :=
    storeAtI_readBack hm (bytes := bcdDigits (s.getV x)) (by rw [length_bcdDigits, memSize]; omega)
  obtain ⟨hundreds, tens, ones⟩ := bcdDigits_toNat (s.getV x)
  refine ⟨t, hexec, hframe, ?_, ?_, ?_, onlyStoresChangeMemory (.ldBR x) s t hexec⟩
  · rw [hread 0 (by simp), hundreds]
  · rw [hread 1 (by simp), tens]
  · rw [hread 2 (by simp), ones]

/-- Settles O31: every register of the range is read back from where the store put it. -/
theorem rangeStoreWritesRegisters : Obligations.RangeStoreWritesRegisters := by
  refine fun x s hm => ⟨fun hout => exec_of_raisedBy (if_pos hout), fun hin => ?_⟩
  obtain ⟨t, hexec, hframe, hread⟩ := exec_ldIRR_readBack hm hin
  exact ⟨t, hexec, hframe, hread, onlyStoresChangeMemory (.ldIRR x) s t hexec⟩

/-! ### Loads (R126) -/

/-- LD_RRI inside the memory loads the `x + 1` bytes from `I` up. -/
theorem exec_ldRRI_of_inRange (hin : s.i.toNat + x.val ≤ 4095) :
    exec (.ldRRI x) s =
      .next (s.advance.loadRegs ((List.range (x.val + 1)).map fun k => s.readByte (s.effectiveAddress 0 + k))) := by
  obtain ⟨-, hread⟩ | ⟨hout, -⟩ := s.memRead_cases (s.effectiveAddress 0) (x.val + 1)
  · simp only [exec, execLdRRI, hread]
  · have := (s.inRange_eq_false_iff (x.val + 1)).1 hout
    omega

/-- Settles O32: a register of the range reads the byte loaded for it, one above it what it held. -/
theorem rangeLoadReadsRegisters : Obligations.RangeLoadReadsRegisters := by
  refine fun x s => ⟨fun hout => exec_of_raisedBy (if_pos hout), fun hin => ?_⟩
  refine ⟨_, exec_ldRRI_of_inRange hin, State.loadRegs_frame _ _, fun k => ?_⟩
  rw [State.getV_loadRegs]
  simp [State.effectiveAddress]

/-- Settles O33: the load reads, for each register of the range, the byte the store wrote from it. -/
theorem rangeLoadUndoesRangeStore : Obligations.RangeLoadUndoesRangeStore := by
  intro x s hm hin
  obtain ⟨t, hstore, htframe, hstored⟩ := exec_ldIRR_readBack hm hin
  have hi : t.i = s.i := by rw [htframe]
  have hv : t.v = s.v := by rw [htframe]
  obtain ⟨u, hload, huframe, hloaded⟩ := (rangeLoadReadsRegisters x t).2 (by rw [hi]; exact hin)
  refine ⟨t, u, hstore, hload, State.v_ext fun k => ?_, by rw [huframe]⟩
  rw [hloaded]
  split
  · next hk =>
    rw [State.effectiveAddress, hi]
    exact hstored k hk
  · exact State.getV_congr hv k

end Sys2Proof.Machine
end

section
/-! PROOF. The display (43_display): the blit as the exclusive-or of the set of pixels the sprite covers, built up from
one pixel to a row and to the whole sprite; then the second draw, DRW and CLS. -/

namespace Sys2Proof.Machine

variable {a b c : FrameBuffer × Bool} {P Q R : Nat → Nat → Prop} {s : State}

/-! ### Flipping a set of pixels (R137) -/

/-- Going from `a` to `b`, a buffer and the collision found so far, flips exactly the pixels in `P`, and finds a
collision iff one of them was on. -/
structure Flips (P : Nat → Nat → Prop) (a b : FrameBuffer × Bool) : Prop where
  changed : ∀ cx cy, b.1.pixel cx cy ≠ a.1.pixel cx cy ↔ P cx cy
  collides : b.2 = true ↔ a.2 = true ∨ ∃ cx cy, P cx cy ∧ a.1.pixel cx cy = true

theorem Flips.kept (h : Flips P a b) {cx cy : Nat} (out : ¬ P cx cy) : b.1.pixel cx cy = a.1.pixel cx cy :=
  not_not.1 (mt (h.changed cx cy).1 out)

theorem Flips.of_empty (a : FrameBuffer × Bool) (empty : ∀ cx cy, ¬ P cx cy) : Flips P a a where
  changed cx cy := iff_of_false (not_not.2 rfl) (empty cx cy)
  collides := by simp [empty]

/-- Two disjoint sets flipped one after the other are their union flipped: no pixel is touched twice (R138 (a)). -/
theorem Flips.trans (hP : Flips P a b) (hQ : Flips Q b c) (disjoint : ∀ cx cy, P cx cy → ¬ Q cx cy)
    (union : ∀ cx cy, R cx cy ↔ P cx cy ∨ Q cx cy) : Flips R a c where
  changed cx cy := by
    rw [union]
    by_cases hp : P cx cy
    · rw [hQ.kept (disjoint cx cy hp), hP.changed, iff_true_intro hp, true_or]
    · rw [← hP.kept hp, hQ.changed, or_iff_right hp]
  collides := by
    have hbefore : (∃ cx cy, Q cx cy ∧ b.1.pixel cx cy = true) ↔ ∃ cx cy, Q cx cy ∧ a.1.pixel cx cy = true :=
      exists_congr fun cx => exists_congr fun cy => and_congr_right fun hq => by
        rw [hP.kept fun hp => disjoint cx cy hp hq]
    rw [hQ.collides, hP.collides, hbefore, or_assoc]
    simp only [union, or_and_right, exists_or]

/-! ### A pixel, a row, a sprite (R135, R136) -/

/-- A set bit addresses the pixel (`dx`, `dy`) from (`cx`, `cy`). -/
def BitCovers (bit : Bool) (cx cy dx dy : Nat) : Prop := bit = true ∧ cx % 64 = dx % 64 ∧ cy % 32 = dy % 32

/-- The first `k` bits of a sprite row at (`cx`, `cy`) cover the pixel (`dx`, `dy`). -/
def RowCovers (k cx cy : Nat) (w : Byte) (dx dy : Nat) : Prop := ∃ i < k, BitCovers (spriteBit w i) (cx + i) cy dx dy

/-- `SpriteCovers` from coordinates that are any numbers, as the rows further down have them. -/
def CoversFrom (cx cy : Nat) (bytes : List Byte) (dx dy : Nat) : Prop :=
  ∃ r, ∃ h : r < bytes.length, RowCovers 8 cx (cy + r) bytes[r] dx dy

theorem coversFrom_iff_spriteCovers (vx vy : Byte) (bytes : List Byte) (dx dy : Nat) :
    CoversFrom vx.toNat vy.toNat bytes dx dy ↔ SpriteCovers vx vy bytes dx dy :=
  exists_congr fun _ => exists_comm

theorem coversFrom_cons (cx cy : Nat) (w : Byte) (bytes : List Byte) (dx dy : Nat) :
    CoversFrom cx cy (w :: bytes) dx dy ↔ RowCovers 8 cx cy w dx dy ∨ CoversFrom cx (cy + 1) bytes dx dy := by
  constructor
  · rintro ⟨_ | r, hr, hcov⟩
    · exact .inl hcov
    · exact .inr ⟨r, Nat.lt_of_succ_lt_succ hr, Nat.add_right_comm cy 1 r ▸ hcov⟩
  · rintro (hcov | ⟨r, hr, hcov⟩)
    · exact ⟨0, Nat.zero_lt_succ _, hcov⟩
    · exact ⟨r + 1, Nat.succ_lt_succ hr, Nat.add_right_comm cy 1 r ▸ hcov⟩

theorem rowCovers_succ (k cx cy : Nat) (w : Byte) (dx dy : Nat) :
    RowCovers (k + 1) cx cy w dx dy ↔
      RowCovers k cx cy w dx dy ∨ BitCovers (spriteBit w k) (cx + k) cy dx dy := by
  simp only [RowCovers, Nat.lt_succ_iff_lt_or_eq, or_and_right, exists_or, exists_eq_left]

/-- Coordinates that agree modulo the size of the grid address the same pixel (R135). -/
theorem FrameBuffer.pixel_congr (fb : FrameBuffer) {cx cy dx dy : Nat} (hx : cx % 64 = dx % 64)
    (hy : cy % 32 = dy % 32) : fb.pixel cx cy = fb.pixel dx dy := by
  simp only [FrameBuffer.pixel, hx, hy]

theorem FrameBuffer.flip_changed (fb : FrameBuffer) (cx cy dx dy : Nat) :
    (fb.flip cx cy).pixel dx dy ≠ fb.pixel dx dy ↔ cx % 64 = dx % 64 ∧ cy % 32 = dy % 32 := by
  rw [FrameBuffer.pixel_flip]
  split
  · next here => exact iff_of_true (Bool.not_ne_self _) here
  · next elsewhere => exact iff_of_false (not_not.2 rfl) elsewhere

/-- One turn of the inner loop: a clear bit leaves everything, a set bit flips its one pixel. -/
theorem blitPixel_flips (cx cy : Nat) (bit : Bool) (a : FrameBuffer × Bool) :
    Flips (BitCovers bit cx cy) a (blitPixel cx cy bit a) := by
  cases bit with
  | false => exact .of_empty a fun _ _ ⟨hset, _⟩ => Bool.false_ne_true hset
  | true =>
    refine ⟨fun dx dy => ?_, ?_⟩
    · exact (a.1.flip_changed cx cy dx dy).trans (and_iff_right rfl).symm
    · have hon : (∃ dx dy, BitCovers true cx cy dx dy ∧ a.1.pixel dx dy = true) ↔ a.1.pixel cx cy = true :=
        ⟨fun ⟨_, _, ⟨_, hx, hy⟩, h⟩ => (a.1.pixel_congr hx hy).trans h, fun h => ⟨cx, cy, ⟨rfl, rfl, rfl⟩, h⟩⟩
      rw [hon]
      exact Bool.or_eq_true_iff

/-- The columns of a row, at most 64 of them, are different pixels. -/
theorem blitColumns_flips {k : Nat} (hk : k ≤ 64) (cx cy : Nat) (w : Byte) (a : FrameBuffer × Bool) :
    Flips (RowCovers k cx cy w) a
      ((List.range k).foldl (fun acc i => blitPixel (cx + i) cy (spriteBit w i) acc) a) := by
  induction k with
  | zero => exact .of_empty a fun _ _ ⟨i, hi, _⟩ => Nat.not_lt_zero i hi
  | succ k ih =>
    rw [List.range_succ, List.foldl_append]
    refine (ih (by omega)).trans (blitPixel_flips (cx + k) cy (spriteBit w k) _) ?_ (rowCovers_succ k cx cy w)
    rintro dx dy ⟨i, hi, -, hcol, -⟩ ⟨-, hcol', -⟩
    omega

theorem blitRow_flips (cx cy : Nat) (w : Byte) (a : FrameBuffer × Bool) :
    Flips (RowCovers 8 cx cy w) a (blitRow cx cy w a) := blitColumns_flips (by decide) cx cy w a

/-- The rows of a sprite, at most 32 of them, are different rows. -/
theorem blitRows_flips {bytes : List Byte} (hlen : bytes.length ≤ 32) (cx cy : Nat) (a : FrameBuffer × Bool) :
    Flips (CoversFrom cx cy bytes) a (blitRows cx cy bytes a) := by
  induction bytes generalizing cy a with
  | nil => exact .of_empty a fun _ _ ⟨r, hr, _⟩ => Nat.not_lt_zero r hr
  | cons w bytes ih =>
    rw [List.length_cons] at hlen
    refine (blitRow_flips cx cy w a).trans (ih (by omega) (cy + 1) _) ?_ (coversFrom_cons cx cy w bytes)
    rintro dx dy ⟨-, -, -, -, hrow⟩ ⟨r, hr, -, -, -, -, hrow'⟩
    omega

/-! ### `draw_sprite` (R137, R138) -/

/-- Settles O36: the rows are flipped one after the other, from a buffer with no collision found yet. -/
theorem drawSpriteIsAPixelwiseXor : Obligations.DrawSpriteIsAPixelwiseXor := by
  intro s vx vy bytes hlen
  obtain ⟨changed, collides⟩ :=
    blitRows_flips (Nat.le_trans hlen (by decide)) vx.toNat vy.toNat (s.fb, false)
  simp only [coversFrom_iff_spriteCovers, Bool.false_eq_true, false_or] at changed collides
  exact ⟨rfl, changed, collides⟩

/-- A pixel changed by both of two draws or by neither is as it was. -/
theorem eq_of_ne_iff_ne : ∀ before between after : Bool, (after ≠ between ↔ between ≠ before) → after = before := by
  decide

/-- Settles O37: a pixel changed twice is as it was, and a covered one is on before the second draw iff it was off before
the first. -/
theorem drawTwiceRestoresTheBuffer : Obligations.DrawTwiceRestoresTheBuffer := by
  intro s vx vy bytes hlen
  obtain ⟨-, first, -⟩ := drawSpriteIsAPixelwiseXor s vx vy bytes hlen
  obtain ⟨-, second, collides⟩ := drawSpriteIsAPixelwiseXor (s.drawSprite vx vy bytes).1 vx vy bytes hlen
  constructor
  · refine FrameBuffer.ext_pixel fun cx _ cy _ => ?_
    exact eq_of_ne_iff_ne _ _ _ ((second cx cy).trans (first cx cy).symm)
  · rw [collides]
    refine exists_congr fun cx => exists_congr fun cy => and_congr_right fun hcov => ?_
    rw [Bool.eq_not_of_ne ((first cx cy).2 hcov), Bool.not_eq_true']

/-! ### DRW (R141) -/

/-- DRW with its bytes inside the memory draws them and writes the collision to VF. -/
theorem exec_drw_of_inRange {x y : Reg} {n : Nibble} (hin : n.val = 0 ∨ s.i.toNat + n.val - 1 ≤ 4095)
    {bytes : List Byte} (hbytes : bytes = (List.range n.val).map fun k => s.readByte (s.effectiveAddress k)) :
    exec (.drw x y n) s =
      .next ((s.advance.drawSprite (s.getV x) (s.getV y) bytes).1.setFlag
        (flagByte (s.advance.drawSprite (s.getV x) (s.getV y) bytes).2)) := by
  obtain ⟨-, hread⟩ | ⟨hout, -⟩ := s.memRead_cases (s.effectiveAddress 0) n.val
  · subst hbytes
    simp only [exec, execDrw, hread]
    rfl
  · have := (s.inRange_eq_false_iff n.val).1 hout
    omega

/-- Settles O38: in range DRW is `draw_sprite` and a write to VF. -/
theorem drwDrawsTheSpriteAtI : Obligations.DrwDrawsTheSpriteAtI := by
  refine fun x y n s => ⟨fun hn hout => exec_of_raisedBy (if_pos ⟨hn, hout⟩), fun hin bytes hbytes => ?_⟩
  have hlen : bytes.length ≤ 15 := by
    rw [hbytes, List.length_map, List.length_range]
    omega
  obtain ⟨-, changed, collides⟩ := drawSpriteIsAPixelwiseXor s.advance (s.getV x) (s.getV y) bytes hlen
  refine ⟨_, exec_drw_of_inRange hin hbytes, rfl, fun r hr => ?_, changed, fun hon => ?_, fun hoff => ?_⟩
  · rw [State.getV_setFlag, if_neg hr]
    rfl
  · rw [State.getV_setFlag, if_pos rfl, collides.2 hon]
    rfl
  · have hnone : (s.advance.drawSprite (s.getV x) (s.getV y) bytes).2 = false := by
      rw [Bool.eq_false_iff, Ne, collides]
      rintro ⟨cx, cy, hcov, hon⟩
      exact Bool.false_ne_true ((hoff cx cy hcov).symm.trans hon)
    rw [State.getV_setFlag, if_pos rfl, hnone]
    rfl

/-! ### CLS (R140) -/

/-- Settles O35: the buffer CLS leaves is the blank grid. -/
theorem clsClearsTheScreen : Obligations.ClsClearsTheScreen :=
  ⟨decodeWord_encode (i := .cls) rfl, fun _ => ⟨_, rfl, rfl, FrameBuffer.pixel_blank⟩⟩

end Sys2Proof.Machine
end

section
/-! PROOF. Keys and timers (44_input_timers): the key latch after a batch as the last event of each key and the last
press of all say, the key instructions on that latch, the timer instructions; and the inputs of the host as the legal
schedules of 60_exceptions R189. -/

namespace Sys2Proof.Machine

variable {s : State}

/-! ### The key latch (R151) -/

/-- The last entry that meets `p`, or `b` if there is none, read from the front: an entry that meets `p` stands in for
`b` in what follows. -/
theorem elim_getLast?_filter_cons {α β : Type} (p : α → Bool) (f : α → β) (b : β) (a : α) (l : List α) :
    ((a :: l).filter p).getLast?.elim b f = (l.filter p).getLast?.elim (if p a then f a else b) f := by
  cases h : p a with
  | false => simp [h]
  | true =>
    rw [List.filter_cons_of_pos h, List.getLast?_cons]
    cases (l.filter p).getLast? <;> rfl

theorem State.lastKey_keyEvent (s : State) (kind : KeyEventKind) (k : Nibble) :
    (s.keyEvent kind k).lastKey = if kind == .press then some k else s.lastKey := by
  cases kind <;> rfl

/-- A batch of keys 0 to 15, from any latch: each key follows its last event, `LAST_KEY` the last press. -/
theorem State.applyKeyEvents_of_legal {events : List KeyEvent} (legal : ∀ e ∈ events, e.key < 16) (s : State) :
    ∃ t, State.applyKeyEvents s events = .next t ∧
      (∀ k : Nibble, t.isPressed k =
        (events.filter fun e => e.key == k.val).getLast?.elim (s.isPressed k) fun e => e.kind == .press) ∧
      t.lastKey.map Fin.val =
        (events.filter fun e => e.kind == .press).getLast?.elim (s.lastKey.map Fin.val) fun e => some e.key := by
  induction events generalizing s with
  | nil => exact ⟨s, rfl, fun _ => rfl, rfl⟩
  | cons e es ih =>
    obtain ⟨hk, hcons⟩ | ⟨hout, -⟩ := s.applyKeyEvents_cons e es
    · have hes : ∀ d ∈ es, d.key < 16 := (List.forall_mem_cons.1 legal).2
      obtain ⟨t, hrest, hkeys, hlast⟩ := ih hes (s.keyEvent e.kind ⟨e.key, hk⟩)
      refine ⟨t, hcons.trans hrest, fun k => ?_, ?_⟩
      · have hkey : k = ⟨e.key, hk⟩ ↔ (e.key == k.val) = true := by rw [beq_iff_eq, Fin.ext_iff, eq_comm]
        rw [hkeys, State.isPressed_keyEvent, elim_getLast?_filter_cons, if_congr hkey rfl rfl]
      · rw [hlast, State.lastKey_keyEvent, elim_getLast?_filter_cons, apply_ite (Option.map Fin.val)]
        rfl
    · exact absurd (legal e List.mem_cons_self) (Nat.not_lt.2 hout)

/-- A batch with an index above 15 is refused with such an index (R151). -/
theorem State.applyKeyEvents_of_illegal {events : List KeyEvent} (illegal : ∃ e ∈ events, 16 ≤ e.key) (s : State) :
    ∃ k, 16 ≤ k ∧ State.applyKeyEvents s events = .refused (.keyEventOutOfRange k) := by
  induction events generalizing s with
  | nil => simp at illegal
  | cons e es ih =>
    obtain ⟨hk, hcons⟩ | ⟨hout, hcons⟩ := s.applyKeyEvents_cons e es
    · have hrest : ∃ d ∈ es, 16 ≤ d.key := by simpa [Nat.not_le.2 hk] using illegal
      rw [hcons]
      exact ih hrest _
    · exact ⟨e.key, hout, hcons⟩

theorem deliver_inputBatch_of_healthy (healthy : s.fault = none) (events : List KeyEvent) :
    deliver (.inputBatch events) s = State.applyKeyEvents { s with lastKey := none } events := by
  simp [deliver, inputBatch, (s.halted_eq_false).2 healthy]

/-- Settles O43: the loop over the events starts with `LAST_KEY` none and the keys as they were. -/
theorem inputBatchUpdatesTheLatch : Obligations.InputBatchUpdatesTheLatch := by
  intro s events healthy
  rw [deliver_inputBatch_of_healthy healthy]
  refine ⟨fun legal => ?_, fun illegal => State.applyKeyEvents_of_illegal illegal _⟩
  obtain ⟨t, hbatch, hkeys, hlast⟩ := State.applyKeyEvents_of_legal legal { s with lastKey := none }
  refine ⟨t, hbatch, State.applyKeyEvents_frame (s := { s with lastKey := none }) hbatch, fun k => ?_, ?_⟩
  · rw [hkeys]
    cases (events.filter fun e => e.key == k.val).getLast? <;> rfl
  · rw [hlast]
    cases (events.filter fun e => e.kind == .press).getLast? <;> rfl

/-! ### LD_RK (R154) -/

/-- The rewind takes back the advance. -/
@[simp] theorem State.rewind_advance (s : State) : s.advance.rewind = s :=
  congrArg s.setPc (BitVec.add_sub_cancel s.pc 2)

theorem exec_ldRK_of_none (x : Reg) (h : s.lastKey = none) : exec (.ldRK x) s = .next s := by
  simp only [exec, execLdRK, h, State.rewind_advance]

theorem exec_ldRK_of_some (x : Reg) {k : Nibble} (h : s.lastKey = some k) :
    exec (.ldRK x) s = .next (s.advance.setV x (BitVec.ofNat 8 k.val)) := by
  simp only [exec, execLdRK, h]

/-- Settles O40: the busy retry, or one register write of the key, which fits in a byte. -/
theorem keyWaitRetriesOrStores : Obligations.KeyWaitRetriesOrStores := by
  refine fun x s => ⟨exec_ldRK_of_none x, fun k hk => ?_⟩
  obtain ⟨t, hexec, hframe, hread⟩ := exec_of_setV (exec_ldRK_of_some x hk)
  refine ⟨t, hexec, hframe, ?_, fun r hr => by rw [hread, if_neg hr]⟩
  rw [hread, if_pos rfl, BitVec.toNat_ofNat]
  omega

/-- Settles O41: a batch without a press leaves `LAST_KEY` none, whatever it was. -/
theorem keyWaitNeedsAPressInTheLatestBatch : Obligations.KeyWaitNeedsAPressInTheLatestBatch := by
  intro x s events healthy releases
  obtain ⟨t, hbatch, -, -, hlast⟩ := (inputBatchUpdatesTheLatch s events healthy).1 fun e he => (releases e he).1
  have noPress : (events.filter fun e => e.kind == .press) = [] :=
    List.filter_eq_nil_iff.2 fun e he => by simp [(releases e he).2]
  have hnone : t.lastKey = none := by simpa [noPress] using hlast
  exact ⟨t, hbatch, hnone, exec_ldRK_of_none x hnone⟩

/-! ### SKP and SKNP (R152, R153) -/

theorem keyOf_of_toNat {v : Byte} {k : Nibble} (h : v.toNat = k.val) : keyOf v = some k := by
  obtain ⟨j, hj, hval⟩ | ⟨hlt, -⟩ := keyOf_cases v
  · rw [hj, Fin.ext (hval.trans h)]
  · omega

/-- Settles O39: a register that names a key makes SKP and SKNP skips on that key's state and its opposite. -/
theorem keySkipsTestTheHeldKey : Obligations.KeySkipsTestTheHeldKey := by
  refine fun x s => ⟨fun k hk => ?_, fun hout => ⟨exec_of_raisedBy (if_pos hout), exec_of_raisedBy (if_pos hout)⟩⟩
  have hkey : keyOf (s.getV x) = some k := keyOf_of_toNat hk
  constructor
  · simp only [exec, execSkp, hkey, State.advance_skipIf]
    rfl
  · simp only [exec, execSknp, hkey, State.advance_skipIf, State.isPressed]
    cases s.keys[k] <;> rfl

/-! ### The timer instructions (R155 to R157) -/

/-- The tone is on iff `ST` is not 0 (60_exceptions R192). -/
theorem State.tone_iff (s : State) : s.tone = true ↔ s.st ≠ 0 := by
  simp [State.tone, Nat.pos_iff_ne_zero, ← BitVec.toNat_inj]

/-- Settles O42: one write each, to `V[x]`, `DT` and `ST`; the tone is a query of `ST`. -/
theorem timerInstructionsMoveTimers : Obligations.TimerInstructionsMoveTimers :=
  fun _ _ => ⟨exec_of_setV rfl, ⟨_, rfl, rfl⟩, ⟨_, rfl, rfl, State.tone_iff _⟩⟩

/-! ### Schedules (R151, 60_exceptions R189) -/

/-- The events of an input other than `Reset` may stand in front of any schedule. -/
theorem legalSchedule_events_append {u : HostInput} (h : u.scheduled = true) (rest : List Event) :
    legalSchedule (u.events ++ rest) = legalSchedule rest := by
  cases u with
  | reset c rom t0 => cases h
  | cycle events => rfl
  | timerTick => rfl
  | gatePoll g now => rfl
  | renderAck => rfl

theorem legalSchedule_flatMap_events {inputs : List HostInput} (h : ∀ u ∈ inputs, u.scheduled = true) :
    legalSchedule (inputs.flatMap HostInput.events) = true := by
  induction inputs with
  | nil => rfl
  | cons u rest ih =>
    obtain ⟨hu, hrest⟩ := List.forall_mem_cons.1 h
    rw [List.flatMap_cons, legalSchedule_events_append hu, ih hrest]

/-- A schedule is the events of inputs other than `Reset`. -/
def IsScheduled (schedule : List Event) : Prop :=
  ∃ inputs : List HostInput, (∀ u ∈ inputs, u.scheduled = true) ∧ inputs.flatMap HostInput.events = schedule

theorem IsScheduled.append {rest : List Event} (h : IsScheduled rest) (u : HostInput) (hu : u.scheduled = true) :
    IsScheduled (u.events ++ rest) := by
  obtain ⟨inputs, hinputs, rfl⟩ := h
  exact ⟨u :: inputs, List.forall_mem_cons.2 ⟨hu, hinputs⟩, List.flatMap_cons⟩

/-- A legal schedule, read from the front, is one input after another. -/
theorem isScheduled_of_legalSchedule {schedule : List Event} (h : legalSchedule schedule = true) :
    IsScheduled schedule := by
  induction schedule using legalSchedule.induct with
  | case1 => exact ⟨[], by simp, rfl⟩
  | case2 events rest ih => exact (ih h).append (.cycle events) rfl
  | case3 rest ih => exact (ih h).append .timerTick rfl
  | case4 rest ih => exact (ih h).append .renderAck rfl
  | case5 g now rest ih => exact (ih h).append (.gatePoll g now) rfl
  | case6 events rest alone => simp [legalSchedule] at h
  | case7 rest => cases h
  | case8 c rom t0 rest => cases h

/-- As many steps as inputs wait are the delivery of all their events: no event reads or writes the inbox. -/
theorem stepMany_inbox (inputs : List HostInput) (s : State) :
    stepMany inputs.length { s with inbox := inputs } =
      deliverAll (inputs.flatMap HostInput.events) { s with inbox := [] } := by
  induction inputs generalizing s with
  | nil => rfl
  | cons u rest ih =>
    have hstep : step { s with inbox := u :: rest } = withInbox rest (deliverAll u.events s) :=
      (step_of_input rfl).trans (deliverAll_withInbox u.events s rest)
    rw [List.length_cons, stepMany, hstep, List.flatMap_cons, deliverAll_append,
      deliverAll_withInbox u.events s []]
    cases deliverAll u.events s with
    | next t => exact ih t
    | fault r => rfl
    | refused r => rfl

/-- Settles O56: a step is the delivery of one input, and inputs other than `Reset` are what legal schedules are made of. -/
theorem everyCpuStepFollowsItsBatch : Obligations.EveryCpuStepFollowsItsBatch := by
  refine ⟨fun s hempty => ?_, fun _ _ _ => step_of_input, fun _ _ _ _ _ _ => ⟨rfl, rfl, rfl, rfl, rfl⟩,
    fun schedule => ⟨isScheduled_of_legalSchedule, ?_⟩, stepMany_inbox⟩
  · simp [step, nextInput, State.takeInput, hempty, HostInput.events]
  · rintro ⟨inputs, hinputs, rfl⟩
    exact legalSchedule_flatMap_events hinputs

end Sys2Proof.Machine
end

section
/-! PROOF. Faults, gates, timers and the host loop (60_exceptions): what a latched fault stops, the cause a `CpuStep`
raises read off the table, the gates and their delays, and one host iteration as a schedule of events. -/

namespace Sys2Proof.Machine

variable {i : Instr} {s t : State}

/-! ### While a fault is latched (R166, R174) -/

theorem State.gatePollAnswer_of_halted (halted : s.fault ≠ none) (g : GateId) (now : Nat) :
    s.gatePollAnswer g now = false := by
  simp [State.gatePollAnswer, (s.halted_eq_true).2 halted]

theorem deliver_of_halted (halted : s.fault ≠ none) {e : Event} (noReset : ∀ c rom t0, e ≠ .reset c rom t0) :
    deliver e s = .next s := by
  have hlatch := (s.halted_eq_true).2 halted
  cases e with
  | reset c rom t0 => exact absurd rfl (noReset c rom t0)
  | inputBatch events => simp [deliver, inputBatch, hlatch]
  | cpuStep => simp [deliver, cpuStep, hlatch]
  | timerTick => simp [deliver, timerTick, hlatch]
  | gatePoll g now => simp [deliver, State.gatePoll, State.gatePollAnswer_of_halted halted]
  | renderAck => simp [deliver, renderAck, hlatch]

theorem deliverAll_of_halted (halted : s.fault ≠ none) {events : List Event}
    (noReset : ∀ e ∈ events, ∀ c rom t0, e ≠ .reset c rom t0) : deliverAll events s = .next s := by
  induction events with
  | nil => rfl
  | cons e rest ih =>
    obtain ⟨he, hrest⟩ := List.forall_mem_cons.1 noReset
    rw [deliverAll, deliver_of_halted halted he]
    exact ih hrest

/-- Settles O8: every event but `Reset` tests the latch first, and `Reset` ends in the reset state's empty latch. -/
theorem haltedCoreChangesOnlyByReset : Obligations.HaltedCoreChangesOnlyByReset := fun _ halted =>
  ⟨fun _ => deliver_of_halted halted, State.gatePollAnswer_of_halted halted,
    fun _ _ _ legal => ⟨_, if_pos legal, rfl⟩⟩

/-! ### Who faults when (R167 to R170) -/

/-- An answer that raises the table's cause, or leaves the latch where the table has none, is as the table says. -/
theorem asTabled {cause : Option Cause} {answer : Result}
    (h : (∃ c, cause = some c ∧ answer = raise c s) ∨ (cause = none ∧ ∃ t, answer = .next t ∧ t.fault = s.fault)) :
    ∃ t, answer = .next t ∧ (∀ c, cause = some c → t = { s with fault := some ⟨c, s.pc⟩ }) ∧
      (cause = none → t.fault = s.fault) := by
  obtain ⟨c, rfl, rfl⟩ | ⟨rfl, t, rfl, hfault⟩ := h
  · exact ⟨_, rfl, fun _ hd => Option.some.inj hd ▸ rfl, nofun⟩
  · exact ⟨t, rfl, nofun, fun _ => hfault⟩

/-- Settles O11: an instruction raises the table's cause, or completes and leaves the latch. -/
theorem everyInstructionAnswersANextState : Obligations.EveryInstructionAnswersANextState := fun i s =>
  asTabled ((raisesOrCompletes i s).imp_right fun ⟨hn, t, ht, hc⟩ => ⟨hn, t, ht, hc.fault_eq⟩)

theorem raisedBy_of_neverFaults (listed : neverFaults i = true) (s : State) : raisedBy i s = none := by
  cases i with
  | drw x y n => simp [raisedBy, of_decide_eq_true listed]
  | sys | ret | call | skp | sknp | ldBR | ldIRR | ldRRI => cases listed
  | _ => rfl

/-- Settles O12: the table has no cause for a listed instruction. -/
theorem listedInstructionsNeverFault : Obligations.ListedInstructionsNeverFault := by
  intro i s listed
  obtain ⟨t, ht, -, hfault⟩ := everyInstructionAnswersANextState i s
  exact ⟨t, ht, hfault (raisedBy_of_neverFaults listed s)⟩

/-- A healthy `CpuStep` raises its cause of the table, in the order fetch, decode, instruction (R169), or its
instruction completes. -/
theorem cpuStep_raisesOrCompletes (healthy : s.fault = none) :
    (∃ c, stepRaises s = some c ∧ cpuStep s = raise c s) ∨
      (stepRaises s = none ∧ ∃ t, cpuStep s = .next t ∧ ∃ i, decodeWord s.wordAtPc = .ok i ∧ Completes s i t) := by
  by_cases hout : 4095 < s.pc.toNat + 1
  · exact .inl ⟨_, if_pos hout, cpuStep_of_fetch_none healthy (State.fetch_eq_none hout)⟩
  have hin : s.pc.toNat + 1 ≤ 4095 := Nat.not_lt.1 hout
  cases hdecode : decodeWord s.wordAtPc with
  | error e =>
    refine .inl ⟨.decodeError s.wordAtPc, by simp [stepRaises, hout, hdecode], ?_⟩
    simp [cpuStep, (s.halted_eq_false).2 healthy, State.fetch_eq_wordAtPc hin, runWord, hdecode]
  | ok i =>
    have hcause : stepRaises s = raisedBy i s := by simp [stepRaises, hout, hdecode]
    rw [hcause, cpuStep_of_decodes healthy hin hdecode]
    exact (raisesOrCompletes i s).imp_right fun ⟨hn, t, ht, hc⟩ => ⟨hn, t, ht, i, rfl, hc⟩

/-- Settles O10: the cause is raised in the state the step began in, and an instruction that completes leaves the
latch empty. -/
theorem stepFaultsExactlyAsTabled : Obligations.StepFaultsExactlyAsTabled := by
  intro s healthy
  have h := asTabled ((cpuStep_raisesOrCompletes healthy).imp_right
    fun ⟨hn, t, ht, i, _, hc⟩ => ⟨hn, t, ht, hc.fault_eq⟩)
  rwa [healthy] at h

/-- All a `CpuStep` can do that answers the next state `t`: nothing, the latch alone, or a completed instruction. -/
theorem cpuStep_next_cases (h : cpuStep s = .next t) :
    t = s ∨ (∃ c, t = { s with fault := some ⟨c, s.pc⟩ }) ∨ ∃ i, decodeWord s.wordAtPc = .ok i ∧ Completes s i t := by
  by_cases healthy : s.fault = none
  · obtain ⟨c, -, he⟩ | ⟨-, u, he, i, hi, hc⟩ := cpuStep_raisesOrCompletes healthy
    · exact .inr (.inl ⟨c, (Host.Outcome.next.inj (he.symm.trans h)).symm⟩)
    · exact .inr (.inr ⟨i, hi, Host.Outcome.next.inj (he.symm.trans h) ▸ hc⟩)
  · have he : cpuStep s = .next s := deliver_of_halted (e := .cpuStep) healthy nofun
    exact .inl (Host.Outcome.next.inj (he.symm.trans h)).symm

/-- Settles O9: of a healthy core only a raise sets the latch, and a raise undoes the step. -/
theorem faultsArePrecise : Obligations.FaultsArePrecise := by
  intro s t healthy h latched
  obtain rfl | hraised | ⟨i, -, hc⟩ := cpuStep_next_cases h
  · exact absurd healthy latched
  · exact hraised
  · exact absurd (hc.fault_eq.trans healthy) latched

/-! ### Timers and the dirty mark (R180, R181; 43_display R139) -/

theorem timerTick_of_healthy (healthy : s.fault = none) :
    timerTick s = { s with dt := tick s.dt, st := tick s.st } := by
  simp [timerTick, (s.halted_eq_false).2 healthy]

theorem renderAck_of_healthy (healthy : s.fault = none) : renderAck s = { s with dirty := false } := by
  simp [renderAck, (s.halted_eq_false).2 healthy]

/-- Settles O44: a tick takes one from each timer, where the subtraction on naturals stops at zero. -/
theorem tickAndAckChangeOnlyTheirOwn : Obligations.TickAndAckChangeOnlyTheirOwn := by
  intro s healthy
  refine ⟨⟨_, congrArg Host.Outcome.next (timerTick_of_healthy healthy), rfl, tick_toNat s.dt, tick_toNat s.st⟩, ?_⟩
  exact congrArg Host.Outcome.next (renderAck_of_healthy healthy)

theorem timerTick_dt_le (s : State) : (timerTick s).dt.toNat ≤ s.dt.toNat := by
  unfold timerTick
  split
  · exact le_rfl
  · exact (tick_toNat s.dt).trans_le (Nat.sub_le _ _)

/-- `RenderAck` changes the dirty mark and nothing else, halted or not. -/
theorem renderAck_frame (s : State) : renderAck s = { s with dirty := (renderAck s).dirty } := by
  unfold renderAck
  split <;> rfl

theorem renderAck_of_clean (clean : s.dirty = false) : renderAck s = s := by
  unfold renderAck
  split
  · rfl
  · rw [← clean]

theorem renderAck_dirty (healthy : (renderAck s).fault = none) : (renderAck s).dirty = false := by
  have hs : s.fault = none := by rwa [renderAck_frame] at healthy
  rw [renderAck_of_healthy hs]

/-! ### Gates (R183 to R187) -/

theorem State.setGate_frame (s : State) (g : GateId) (v : Gate) :
    s.setGate g v = { s with cpuGate := (s.setGate g v).cpuGate, timerGate := (s.setGate g v).timerGate } := by
  cases g <;> rfl

/-- The gate written reads as written, the other one as before. -/
theorem State.gate_setGate (s : State) (g h : GateId) (v : Gate) :
    (s.setGate g v).gate h = if h = g then v else s.gate h := by
  cases g <;> cases h <;> rfl

/-- A gate is due when its interval has passed; the clock has then not gone back (R184, R185). -/
theorem Gate.due_iff (g : Gate) (now : Nat) : g.due now = true ↔ g.lastFire + g.interval ≤ now := by
  simp only [Gate.due, decide_eq_true_eq]
  omega

theorem State.gatePollAnswer_iff (s : State) (g : GateId) (now : Nat) :
    s.gatePollAnswer g now = true ↔ s.fault = none ∧ (s.gate g).lastFire + (s.gate g).interval ≤ now := by
  rw [State.gatePollAnswer, Bool.and_eq_true, Bool.not_eq_true', State.halted_eq_false, Gate.due_iff]

theorem State.gatePoll_of_fires {g : GateId} {now : Nat} (fires : s.gatePollAnswer g now = true) :
    s.gatePoll g now = s.setGate g ⟨(s.gate g).interval, now⟩ := if_pos fires

theorem State.gatePoll_of_idle {g : GateId} {now : Nat} (idle : s.gatePollAnswer g now = false) :
    s.gatePoll g now = s := by
  simp [State.gatePoll, idle]

/-- Polling a gate changes the gates and nothing else, whether it fires or not. -/
theorem State.gatePoll_frame (s : State) (g : GateId) (now : Nat) :
    s.gatePoll g now = { s with cpuGate := (s.gatePoll g now).cpuGate, timerGate := (s.gatePoll g now).timerGate } := by
  unfold State.gatePoll
  split
  · exact s.setGate_frame g _
  · rfl

/-- Settles O46: the gate that fires is written once, with its interval and `now`, from which the next interval runs. -/
theorem gateFiresOncePerInterval : Obligations.GateFiresOncePerInterval := by
  refine fun s g now => ⟨s.gatePollAnswer_iff g now,
    fun idle => congrArg Host.Outcome.next (State.gatePoll_of_idle idle), fun fires => ?_⟩
  have hself := (s.gate_setGate g g ⟨(s.gate g).interval, now⟩).trans (if_pos rfl)
  refine ⟨_, congrArg Host.Outcome.next (State.gatePoll_of_fires fires), s.setGate_frame g _, hself,
    fun h hne => (s.gate_setGate g h _).trans (if_neg hne), fun later early => ?_⟩
  rw [← Bool.not_eq_true, State.gatePollAnswer_iff, hself]
  exact fun again => Nat.not_lt.2 again.2 early

/-- The delay is zero exactly when the gate is due. -/
theorem Gate.delayUntil_eq_zero_iff (g : Gate) (now : Nat) : g.delayUntil now = 0 ↔ g.due now = true := by
  rw [Gate.due_iff, Gate.delayUntil, Nat.sub_eq_zero_iff_le]

/-- The smallest delay is the delay of a gate of the list and above none (R187). -/
theorem smallestDelay_eq_some_iff (gates : List Gate) (now d : Nat) :
    smallestDelay gates now = some d ↔ (∃ g ∈ gates, d = g.delayUntil now) ∧ ∀ g ∈ gates, d ≤ g.delayUntil now := by
  rw [smallestDelay, List.min?_eq_some_iff, List.mem_map, List.forall_mem_map]
  simp only [eq_comm (a := d)]

/-- Settles O47: natural subtraction is the maximum with zero, and a list with a gate has a least delay. -/
theorem delaysAreTheTimeLeft : Obligations.DelaysAreTheTimeLeft := by
  refine fun s now => ⟨fun g => ?_, fun healthy g => ?_, fun gates nonempty => ?_, rfl⟩
  · rw [Gate.delayUntil]
    omega
  · rw [Gate.delayUntil_eq_zero_iff, Gate.due_iff, State.gatePollAnswer_iff, and_iff_right healthy]
  · obtain ⟨d, hd⟩ := Option.isSome_iff_exists.1
      (List.isSome_min?_of_ne_nil (l := gates.map fun g => g.delayUntil now) (by simpa using nonempty))
    exact ⟨d, hd, (smallestDelay_eq_some_iff gates now d).1 hd⟩

/-! ### `DT` under every event (R181) -/

/-- Settles O45: a batch, a poll and an acknowledgement leave `DT`, a tick does not raise it, and of the instructions
LD_DR alone writes it. -/
theorem delayTimerRisesOnlyByLoad : Obligations.DelayTimerRisesOnlyByLoad := by
  intro s t e h noReset rises
  have kept {u : State} (hu : u.dt.toNat ≤ s.dt.toNat) : deliver e s ≠ .next u := fun he =>
    Nat.not_lt.2 hu (Host.Outcome.next.inj (he.symm.trans h) ▸ rises)
  cases e with
  | reset c rom t0 => exact absurd rfl (noReset c rom t0)
  | inputBatch events => exact absurd h (kept (by rw [inputBatch_frame h]))
  | timerTick => exact absurd rfl (kept (timerTick_dt_le s))
  | gatePoll g now => exact absurd rfl (kept (by rw [State.gatePoll_frame]))
  | renderAck => exact absurd rfl (kept (by rw [renderAck_frame]))
  | cpuStep =>
    obtain rfl | ⟨c, rfl⟩ | ⟨i, hi, hc⟩ := cpuStep_next_cases h
    · exact absurd rises (Nat.lt_irrefl _)
    · exact absurd rises (Nat.lt_irrefl _)
    · refine ⟨rfl, by_contra fun noLoad => ?_⟩
      have hdt : t.dt = s.dt := hc.dt_eq fun x hx => noLoad ⟨x, hx ▸ hi⟩
      exact absurd rises (by simp [hdt])

/-! ### One iteration of the host loop (R188 to R192) -/

theorem cpuStep_timerGate (h : cpuStep s = .next t) : t.timerGate = s.timerGate := by
  obtain rfl | ⟨c, rfl⟩ | ⟨i, -, hc⟩ := cpuStep_next_cases h
  · rfl
  · rfl
  · obtain ⟨-, -, -, htimer, -, -⟩ := hc.unwritten_eq
    exact htimer

/-- The CPU part of an iteration changes nothing, or it runs on a healthy core and leaves the timer gate. -/
theorem iterationCpu_cases {now : Nat} {events : List KeyEvent} (h : iterationCpu now events s = .next t) :
    t = s ∨ (s.fault = none ∧ t.timerGate = s.timerGate) := by
  unfold iterationCpu at h
  split at h
  · next fires =>
    refine .inr ⟨((s.gatePollAnswer_iff _ _).1 fires).1, ?_⟩
    rw [deliverAll_cycle] at h
    cases hbatch : inputBatch events (s.gatePoll .cpu now) with
    | next u =>
      rw [hbatch] at h
      calc t.timerGate = u.timerGate := cpuStep_timerGate h
        _ = (s.gatePoll .cpu now).timerGate := by rw [inputBatch_frame hbatch]
        _ = s.timerGate := by rw [State.gatePoll_of_fires fires]; rfl
    | fault r => cases r
    | refused r => simp [hbatch] at h
  · exact .inl (Host.Outcome.next.inj h).symm

/-- Delivering what the CPU gate brings is the CPU part of the iteration. -/
theorem deliverAll_cpuEvents (now : Nat) (events : List KeyEvent) (s : State) :
    deliverAll (if s.gatePollAnswer .cpu now then [.gatePoll .cpu now, .inputBatch events, .cpuStep] else []) s =
      iterationCpu now events s := by
  unfold iterationCpu
  cases s.gatePollAnswer .cpu now <;> rfl

/-- Delivering what the timer gate brings, decided before the CPU part, is the timer part after it: the CPU part leaves
the gate, and if it latches a fault neither does anything. -/
theorem deliverAll_timerEvents {now1 now2 : Nat} {events : List KeyEvent} (h : iterationCpu now1 events s = .next t) :
    deliverAll (if s.gatePollAnswer .timer now2 then [.gatePoll .timer now2, .timerTick] else []) t =
      .next (iterationTimer now2 t) := by
  by_cases healthy : t.fault = none
  · have hanswer : t.gatePollAnswer .timer now2 = s.gatePollAnswer .timer now2 := by
      obtain rfl | ⟨hs, hgate⟩ := iterationCpu_cases h
      · rfl
      · simp only [State.gatePollAnswer, State.halted, State.gate, healthy, hs, hgate]
    unfold iterationTimer
    rw [hanswer]
    cases s.gatePollAnswer .timer now2 <;> rfl
  · have hidle : iterationTimer now2 t = t := by
      simp [iterationTimer, State.gatePollAnswer_of_halted healthy]
    rw [hidle]
    exact deliverAll_of_halted healthy (by split <;> simp)

/-- An iteration is the delivery of its events and then what the host does (R188). -/
theorem hostIteration_of_events {now1 now2 now3 : Nat} {events : List KeyEvent} {w : State}
    (h : deliverAll (iterationEvents now1 now2 events s) s = .next w) :
    hostIteration now1 now2 now3 events s = .next (iterationHost now3 w) := by
  rw [iterationEvents, deliverAll_append, deliverAll_cpuEvents] at h
  unfold hostIteration
  cases hcpu : iterationCpu now1 events s with
  | next t =>
    rw [hcpu] at h
    obtain rfl := Host.Outcome.next.inj ((deliverAll_timerEvents hcpu).symm.trans h)
    rfl
  | fault r => cases r
  | refused r => simp [hcpu] at h

theorem legalSchedule_iterationEvents (now1 now2 : Nat) (events : List KeyEvent) (s : State) :
    legalSchedule (iterationEvents now1 now2 events s) = true := by
  unfold iterationEvents
  cases s.gatePollAnswer .cpu now1 <;> cases s.gatePollAnswer .timer now2 <;> rfl

/-- What an iteration does behind its events: `RenderAck`, which makes no difference to a clean screen, and a report of
the state the events lead to. -/
theorem iterationHost_eq (now : Nat) (s : State) :
    iterationHost now s = (renderAck s, ⟨if s.dirty then some s.fb else none, s.tone, s.sleepDelay now⟩) := by
  have hstate : (if s.dirty then renderAck s else s) = renderAck s := ite_eq_left_iff.2 fun clean =>
    (renderAck_of_clean (Bool.eq_false_of_not_eq_true clean)).symm
  have htone : (renderAck s).tone = s.tone := by rw [renderAck_frame]; rfl
  have hsleep : (renderAck s).sleepDelay now = s.sleepDelay now := by rw [renderAck_frame]; rfl
  simp only [iterationHost, hstate, htone, hsleep, State.display]

/-- Settles O48: the events of an iteration are delivered first, and `RenderAck` is the rest of what it does to the
core; with no events and a clean screen that is nothing. -/
theorem hostIterationDeliversTheEvents : Obligations.HostIterationDeliversTheEvents := by
  refine fun now1 now2 now3 events s => ⟨legalSchedule_iterationEvents now1 now2 events s, fun w h => ?_,
    fun cpuIdle timerIdle clean => ?_⟩
  · exact ⟨_, _, (hostIteration_of_events h).trans (congrArg _ (iterationHost_eq now3 w)), rfl, renderAck_dirty, rfl,
      decide_eq_true_iff, rfl⟩
  · have hnone : deliverAll (iterationEvents now1 now2 events s) s = .next s := by
      simp [iterationEvents, cpuIdle, timerIdle, deliverAll]
    rw [hostIteration_of_events hnone, iterationHost_eq, renderAck_of_clean clean, clean]
    exact ⟨_, rfl, rfl⟩

end Sys2Proof.Machine
end

section
/-! PROOF. Reset and the hazards of a run (70_reset_and_hazards): the memory a `Reset` leaves, the end of a run at a JP
to its own address, and one press that serves one key wait. -/

namespace Sys2Proof.Machine

variable {s : State}

/-! ### Reset (R200; 20_memory R41, R58) -/

theorem background_of_font (c : Config) (a : Fin 80) : background c a.val = c.font[a] := dif_pos a.isLt

theorem background_of_le (c : Config) {a : Nat} (h : 80 ≤ a) : background c a = 0 := dif_neg (Nat.not_lt.2 h)

/-- The part of a ROM that is loaded ends inside the memory. -/
theorem loadedRom_le_memSize (rom : List Byte) : progBase + (rom.take progCapacity).length ≤ memSize :=
  Nat.add_le_add_left (List.length_take_le progCapacity rom) progBase

/-- An address outside the loaded program reads as its reset contents. -/
theorem resetState_readByte_outside (c : Config) (rom : List Byte) (t0 : Nat) {a : Nat}
    (outside : a < 0x200 ∨ 0x200 + min rom.length 3584 ≤ a) : (resetState c rom t0).readByte a = background c a := by
  rw [Nat.min_comm, ← List.length_take] at outside
  exact Memory.read_writeList_other (c := c) [] outside

/-- The program is loaded as far as the capacity goes. -/
theorem resetState_readByte_program (c : Config) (rom : List Byte) (t0 : Nat) {k : Nat} (inRom : k < rom.length)
    (fits : k < 3584) : (resetState c rom t0).readByte (0x200 + k) = rom[k] := by
  have loaded : k < (rom.take progCapacity).length := List.length_take ▸ Nat.lt_min.2 ⟨fits, inRom⟩
  exact (Memory.read_writeList Memory.wf_nil (loadedRom_le_memSize rom) loaded).trans List.getElem_take

/-- Settles O49: the fields are those of the reset state and of the new gates, and memory is the loaded program over
the reset contents. -/
theorem resetSetsEverything : Obligations.ResetSetsEverything := by
  intro c rom t0 s
  refine ⟨fun illegal => by simp [deliver, resetEvent, illegal], fun legal => ⟨_, if_pos legal, ?_⟩⟩
  have glyphs (a : Fin 80) : (resetState c rom t0).readByte a.val = c.font[a] :=
    (resetState_readByte_outside c rom t0 (.inl (by omega))).trans (background_of_font c a)
  have zeros (a : Nat) (above : 80 ≤ a) (outside : a < 0x200 ∨ 0x200 + min rom.length 3584 ≤ a) :
      (resetState c rom t0).readByte a = 0 :=
    (resetState_readByte_outside c rom t0 outside).trans (background_of_le c above)
  have registers (r : Reg) : (resetState c rom t0).getV r = 0 := Vector.getElem_replicate r.isLt
  have stack (k : Fin 16) : (resetState c rom t0).stack[k] = 0 := Vector.getElem_replicate k.isLt
  have keys (k : Nibble) : (resetState c rom t0).isPressed k = false := Vector.getElem_replicate k.isLt
  exact ⟨registers, rfl, rfl, rfl, stack, rfl, rfl, FrameBuffer.pixel_blank, rfl, keys, rfl, rfl, rfl, rfl, rfl,
    glyphs, fun _ => resetState_readByte_program c rom t0, zeros, rfl, rfl, rfl⟩

/-! ### The end of a run (R214) -/

/-- The word at `PC` of a state at the end of a run is a JP to `PC`. -/
theorem State.atSelfJump_decodes (h : s.atSelfJump = true) :
    s.pc.toNat + 1 ≤ 4095 ∧ ∃ nnn : Addr12, decodeWord s.wordAtPc = .ok (.jp nnn) ∧ nnn.toNat = s.pc.toNat := by
  simp only [State.atSelfJump, Bool.and_eq_true, decide_eq_true_eq] at h
  obtain ⟨hfetch, hpc⟩ := h
  have hin := (State.fetch_some hfetch).1
  have hword : s.wordAtPc = encode (.jp (s.pc.setWidth 12)) :=
    Option.some.inj ((State.fetch_eq_wordAtPc hin).symm.trans hfetch)
  refine ⟨hin, s.pc.setWidth 12, hword ▸ decodeWord_encode rfl, ?_⟩
  rw [BitVec.toNat_setWidth, Nat.mod_eq_of_lt (by omega)]

theorem cpuStep_of_atSelfJump (healthy : s.fault = none) (h : s.atSelfJump = true) : cpuStep s = .next s := by
  obtain ⟨hin, nnn, hdecode, hself⟩ := State.atSelfJump_decodes h
  obtain ⟨-, -, hstays⟩ := jumpGoesToItsTarget nnn s
  rw [cpuStep_of_decodes healthy hin hdecode, hstays hself]

/-- The empty batch empties `LAST_KEY`, which the fetch does not read. -/
theorem step_of_atSelfJump (healthy : s.fault = none) (h : s.atSelfJump = true) (hempty : s.inbox = []) :
    step s = .next { s with lastKey := none } := by
  rw [step_of_empty hempty healthy]
  exact cpuStep_of_atSelfJump (s := { s with lastKey := none }) healthy h

theorem staysHealthy_of_atSelfJump (k : Nat) (healthy : s.fault = none) (h : s.atSelfJump = true)
    (hempty : s.inbox = []) : staysHealthy k s = true := by
  have hhealthy : s.healthy = true := by simp [State.healthy, healthy]
  induction k generalizing s with
  | zero => exact hhealthy
  | succ k ih =>
    rw [staysHealthy, hhealthy, step_of_atSelfJump healthy h hempty]
    exact ih (s := { s with lastKey := none }) healthy h hempty hhealthy

/-- Settles O19: the state after a step is again healthy and at the same JP. -/
theorem selfJumpEndsTheRun : Obligations.SelfJumpEndsTheRun := fun _ healthy h =>
  ⟨cpuStep_of_atSelfJump healthy h, step_of_atSelfJump healthy h, fun k => staysHealthy_of_atSelfJump k healthy h⟩

/-! ### Two key waits (R213; 44_input_timers R151, R154) -/

/-- Behind these inputs an LD_RK waits: the next batch has no press in it. -/
def NoPressWaiting (inbox : List HostInput) : Prop :=
  inbox = [] ∨ ∃ events more, inbox = .cycle events :: more ∧ ∀ e ∈ events, e.key < 16 ∧ e.kind = .release

/-- A batch of one press: its key is down and is the last key. -/
theorem inputBatch_press (healthy : s.fault = none) (k : Nibble) :
    inputBatch [⟨.press, k.val⟩] s = .next { s with keys := s.keys.set k true, lastKey := some k } := by
  simp [inputBatch, (s.halted_eq_false).2 healthy, State.applyKeyEvents, State.keyEvent]

section
variable {x : Reg} (healthy : s.fault = none) (hin : s.pc.toNat + 1 ≤ 4095)
  (hdecode : decodeWord s.wordAtPc = .ok (.ldRK x))
include healthy hin hdecode

theorem step_ldRK_of_empty (hempty : s.inbox = []) : step s = .next { s with lastKey := none } := by
  obtain ⟨-, hstep, -⟩ := stepRunsTheDecodedInstruction s (.ldRK x) healthy hin hdecode
  rw [hstep hempty, exec_ldRK_of_none x rfl]

/-- Without a press LD_RK waits, whatever `LAST_KEY` was and whatever keys are down. -/
theorem step_ldRK_of_noPressWaiting (noPress : NoPressWaiting s.inbox) :
    ∃ u, step s = .next u ∧ u.pc = s.pc ∧ u.v = s.v ∧ u.lastKey = none := by
  obtain hempty | ⟨events, more, hinbox, releases⟩ := noPress
  · exact ⟨_, step_ldRK_of_empty healthy hin hdecode hempty, rfl, rfl, rfl⟩
  · obtain ⟨-, -, hstep⟩ := stepRunsTheDecodedInstruction s (.ldRK x) healthy hin hdecode
    obtain ⟨u, hbatch, hlast, hwaits⟩ :=
      keyWaitNeedsAPressInTheLatestBatch x { s with inbox := more } events healthy releases
    have hframe := inputBatch_frame hbatch
    exact ⟨u, (hstep events more u hinbox hbatch).trans hwaits, by rw [hframe], by rw [hframe], hlast⟩

/-- With one press waiting LD_RK stores its key, with the key down; the press is gone from the inbox. -/
theorem step_ldRK_of_press {k : Nibble} {rest : List HostInput}
    (hinbox : s.inbox = .cycle [⟨.press, k.val⟩] :: rest) :
    ∃ t, step s = .next t ∧
      t = { s with v := t.v, pc := s.pc + 2, keys := s.keys.set k true, lastKey := some k, inbox := rest } ∧
      (t.getV x).toNat = k.val := by
  have hbatch := inputBatch_press (s := { s with inbox := rest }) healthy k
  obtain ⟨-, -, hstep⟩ := stepRunsTheDecodedInstruction s (.ldRK x) healthy hin hdecode
  obtain ⟨-, hstores⟩ := keyWaitRetriesOrStores x
    { s with keys := s.keys.set k true, lastKey := some k, inbox := rest }
  obtain ⟨t, hexec, hframe, hkey, -⟩ := hstores k rfl
  exact ⟨t, (hstep _ _ _ hinbox hbatch).trans hexec, hframe, hkey⟩

end

/-- Settles O57: the step that serves the press takes it out of the inbox, so the second LD_RK has no press waiting. -/
theorem onePressServesOneKeyWait : Obligations.OnePressServesOneKeyWait := by
  intro x y k s rest healthy hin hx hy
  have hfirst : s.pc.toNat + 1 ≤ 4095 := by omega
  refine ⟨step_ldRK_of_empty healthy hfirst hx, fun hinbox noPress => ?_⟩
  obtain ⟨t, hstep, hframe, hkey⟩ := step_ldRK_of_press healthy hfirst hx hinbox
  have hpc : t.pc = s.pc + 2 := by rw [hframe]
  have hdown : t.isPressed k = true := by rw [hframe]; exact Vector.getElem_set_self _
  have hhealthy : t.fault = none := by rw [hframe]; exact healthy
  have hnext : t.pc.toNat = s.pc.toNat + 2 := hpc ▸ pc_add_two hfirst
  have hsecond : t.pc.toNat + 1 ≤ 4095 := by omega
  have hdecode : decodeWord t.wordAtPc = .ok (.ldRK y) := by rw [hframe]; exact hy
  have noMore : NoPressWaiting t.inbox := by rw [hframe]; exact noPress
  obtain ⟨u, hwait⟩ := step_ldRK_of_noPressWaiting hhealthy hsecond hdecode noMore
  exact ⟨t, u, hstep, hkey, hpc, hdown, hwait⟩

end Sys2Proof.Machine
end

section
/-! PROOF. Sample words (95_test_vectors part 1): a word written out from the spec is decoded by naming the instruction
it is the word of, or by finding it among the illegal words. -/

namespace Sys2Proof

variable {w : Word}

/-- A word is decoded by encoding the instruction it stands for (R71). -/
theorem decodeWord_of_encode_eq {i : Instr} (hwf : i.wellFormed = true) (hword : encode i = w) :
    decodeWord w = .ok i := hword ▸ decodeWord_encode hwf

/-- A listed word is rejected with itself (R65, R67). -/
theorem decodeWord_of_illegal (hillegal : illegalWord w = true) : decodeWord w = .error (.illegal w) :=
  (illegalWordsAreExactlyTheListed w).1 hillegal

/-- Settles O5: `0x5123` is a listed illegal word, and every other sample is the encoding of its instruction. -/
theorem sampleWordsDecode : Obligations.SampleWordsDecode := by
  have hcls : encode .cls = 0x00E0 := rfl
  have hret : encode .ret = 0x00EE := rfl
  have hjp : encode (.jp 0x228) = 0x1228 := rfl
  have hldRV : encode (.ldRV 0xA 0x02) = 0x6A02 := rfl
  have hillegal : illegalWord 0x5123 = true := rfl
  have hand : encode (.and 2 3) = 0x8232 := rfl
  have hdrw : encode (.drw 1 2 15) = 0xD12F := rfl
  have hldRK : encode (.ldRK 3) = 0xF30A := rfl
  exact ⟨decodeWord_of_encode_eq rfl hcls, decodeWord_of_encode_eq rfl hret, decodeWord_of_encode_eq rfl hjp,
    decodeWord_of_encode_eq rfl hldRV, decodeWord_of_illegal hillegal, decodeWord_of_encode_eq rfl hand,
    decodeWord_of_encode_eq rfl hdrw, decodeWord_of_encode_eq rfl hldRK⟩

end Sys2Proof
end
